-- ==== Sys2Proof/Word.lean ====
section
/-!
DEFINITION. The value types of the machine (spec/00_scope.md R6, R7, R10; spec/10_state.md R21).

Every register, every data-memory word, every instruction word, the program counter and every IO word is
64 bits wide (`XLEN` = 64, decision D1; `PC_BITS` = 64, decision D6).  Bit 63 is the leftmost bit of the
source's hexadecimal notation and bit 0 the rightmost (R6), which is `BitVec`'s own numbering.
-/

namespace Sys2Proof

/-- A 64-bit value: a register, a word of data memory, an instruction word, the pc, an IO word. -/
abbrev Word := BitVec 64

/-- One byte of an instruction word, or one byte cell of the data memory. -/
abbrev Byte := BitVec 8

/-- A register address: the 8-bit index carried in byte 2, 3 or 4 of an instruction (R21). -/
abbrev RegAddr := BitVec 8

/-- The control bit that travels with a word on an IO access (R13). -/
abbrev Bit := BitVec 1

end Sys2Proof
end

