-- ==== Sys2Proof/Machine/Flags.lean ====
section
/-!
DEFINITION. The machine has no flags (spec/10_state.md R28): a branch compares two values inside the instruction, and
a comparison writes 0 or 1 to a register.  What other machines keep in flags is here the six conditions, on
values read as two's-complement signed integers (R11, R100).
-/

namespace Sys2Proof.Machine

/-- `a = b`. -/
def condEq (a b : Word) : Bool := a == b

/-- `a != b`. -/
def condNe (a b : Word) : Bool := a != b

/-- `signed(a) < signed(b)`. -/
def condLt (a b : Word) : Bool := decide (a.toInt < b.toInt)

/-- `signed(a) <= signed(b)`. -/
def condLe (a b : Word) : Bool := decide (a.toInt ≤ b.toInt)

/-- `signed(a) > signed(b)`. -/
def condGt (a b : Word) : Bool := decide (b.toInt < a.toInt)

/-- `signed(a) >= signed(b)`. -/
def condGe (a b : Word) : Bool := decide (b.toInt ≤ a.toInt)

/-- `bool(c)`: the 64-bit value 1 or 0 (R11). -/
def boolWord (c : Bool) : Word := if c then 1 else 0

end Sys2Proof.Machine
end

