-- ==== Sys2Proof/Config.lean ====
section
/-!
DEFINITION. The implementation parameters of spec/00_scope.md R5, and the free values.

The spec leaves a list of quantities open and makes each "a named parameter of the model (a configuration
field)".  `Config` holds them as plain data; the machine's state carries one `Config`, no instruction changes
it, and a statement about every state is therefore a statement about every value of every parameter.
`Config.default` holds the spec's "default" column, the values its test vectors use.

Fixed and not a field: `XLEN` = 64 and `PC_BITS` = 64 (derived, decisions D1 and D6); `PC_STEP` = 1
(`Config.pcStep`, log entry 11); `PROG_LEN`, which is the length of the program in the state;
`REG_RESET` = zero (log entry 1).
-/

namespace Sys2Proof

/-- How a narrow field becomes 64 bits: the values of `EXT_IMM`, `EXT_BR` and `EXT_OFF` (R5, R11). -/
inductive Ext where
  | zext | sext
  deriving DecidableEq, Repr

/-- `BR_BASE`: the value a branch distance is added to (R5, R100, decision D11). -/
inductive BrBase where
  /-- the address of the branch itself -/
  | pc
  /-- the address of the instruction after the branch -/
  | pcPlusStep
  deriving DecidableEq, Repr

/-- `SHIFT_OVER`: the result of `shr`/`shl` by 64 to 255 (R5, R122, decision D14). -/
inductive ShiftOver where
  | zero | mod64
  deriving DecidableEq, Repr

/-- `CALL_SAVES`: the value `call` pushes (R5, R181, decision D17). -/
inductive CallSaves where
  /-- the address of the instruction after the `call` -/
  | pcPlusStep
  /-- the address of the `call`; `ret` then adds `PC_STEP` -/
  | pc
  deriving DecidableEq, Repr

/-- `STACK_DIR`: growth of the function stack (R5, R180, decision D17). -/
inductive StackDir where
  /-- push: sp - 1, then store; pop: load, then sp + 1 -/
  | downPre
  /-- push: store, then sp + 1; pop: sp - 1, then load -/
  | upPost
  deriving DecidableEq, Repr

/-- `SIO_CTRL`: where the control bit of `sio`/`sioi` comes from (R5, R167, decision D20). -/
inductive SioCtrl where
  /-- a draw: a bit the model does not constrain -/
  | draw
  /-- "a model that fixes it" (93_implementation_defined.md U8) -/
  | fixed (c : Bit)
  deriving DecidableEq, Repr

/-- `SIO_ADDR`: the device number of `sio` (R5, R167, decision D20, 90_conflicts.md C2). -/
inductive SioAddr where
  | basePlusImm | imm
  deriving DecidableEq, Repr

/-- `MEM_RESET`: what a data-memory word holds that nothing has written (R5, R30, decision D30). -/
inductive MemReset where
  | unspecified | zero
  deriving DecidableEq, Repr

/-- `DEVICES`: the device numbers that answer (R5, R31, decision D28). -/
inductive DeviceSet where
  | all
  | only (devs : List Word)
  deriving DecidableEq, Repr

/-- The parameters of spec/00_scope.md R5 that a run may choose. -/
structure Config where
  /-- `NREG`: valid register addresses are 0 .. NREG-1 (D2). -/
  nreg         : Nat
  /-- `NPTR_ZERO`: register 0 reads 0 and discards writes (D3). -/
  nptrZero     : Bool
  /-- `REG_MEM`: the register address the assembler writes for `mem` (D4). -/
  regMem       : RegAddr
  /-- `REG_SP`: the register `call` and `ret` use as stack pointer (D5). -/
  regSp        : RegAddr
  /-- `MEM_WORDS`: valid word addresses are 0 .. MEM_WORDS-1 (D9). -/
  memWords     : Nat
  /-- `EXT_IMM` (D10). -/
  extImm       : Ext
  /-- `EXT_BR` (D11). -/
  extBr        : Ext
  /-- `BR_BASE` (D11). -/
  brBase       : BrBase
  /-- `EXT_OFF` (D12). -/
  extOff       : Ext
  /-- `SHIFT_OVER` (D14). -/
  shiftOver    : ShiftOver
  /-- `STRICT_DECODE` (D15). -/
  strictDecode : Bool
  /-- `CALL_SAVES` (D17). -/
  callSaves    : CallSaves
  /-- `STACK_DIR` (D17). -/
  stackDir     : StackDir
  /-- `SIO_CTRL` (D20). -/
  sioCtrl      : SioCtrl
  /-- `SIO_ADDR` (D20). -/
  sioAddr      : SioAddr
  /-- `MEM_RESET` (D18, D30). -/
  memReset     : MemReset
  /-- `DEVICES` (D28). -/
  devices      : DeviceSet
  deriving DecidableEq, Repr

/-- `PC_STEP`: the pc counts 64-bit instruction words (R27, decision D6; log entry 11). -/
def Config.pcStep : Word := 1

/-- The default column of R5.  For `MEM_WORDS` the column fixes no number and allows 2^64, "under which
`MemOutOfRange` never occurs"; the model takes that value (DESIGN CHOICE, log entry 6). -/
def Config.default : Config where
  nreg := 256
  nptrZero := true
  regMem := 0xFE
  regSp := 0xFF
  memWords := 2 ^ 64
  extImm := .zext
  extBr := .sext
  brBase := .pc
  extOff := .zext
  shiftOver := .zero
  strictDecode := true
  callSaves := .pcPlusStep
  stackDir := .downPre
  sioCtrl := .draw
  sioAddr := .basePlusImm
  memReset := .unspecified
  devices := .all

/-- The configurations the model accepts: 1 <= NREG <= 256 (R21); REG_SP, REG_MEM and 0 pairwise different
(R24); both reserved registers inside the file (93_implementation_defined.md U24). -/
def Config.wf (c : Config) : Bool :=
  decide (1 ≤ c.nreg) && decide (c.nreg ≤ 256) && c.regMem != c.regSp && c.regMem != 0 && c.regSp != 0 &&
    decide (c.regMem.toNat < c.nreg) && decide (c.regSp.toNat < c.nreg)

/-- What an unlisted byte cell of the data memory reads as: nothing, so that the read is `UninitRead` (the
default), or 0 under `MEM_RESET = zero` (R30, decision D30).  The ONE definition of it. -/
def Config.memFill (c : Config) : Option Byte :=
  match c.memReset with
  | .unspecified => none
  | .zero => some 0

/-- Whether a device number is one of `DEVICES` (R31). -/
def DeviceSet.answers (d : DeviceSet) (dev : Word) : Bool :=
  match d with
  | .all => true
  | .only devs => devs.contains dev

/-- What a device answers to an `IORead`: a 64-bit word and a control bit (R13). -/
structure IoAnswer where
  word : Word
  ctrl : Bit
  deriving DecidableEq, Repr, Inhabited

/-- FREE VALUE.  The answer to an `IORead` of a device, as a function of the number of draws made so far
(R13, R31: "a pair `(v, c)` that the model does not constrain"; U10).  Log entry 3. -/
opaque Config.ioAnswer : Nat → Word → IoAnswer

/-- FREE VALUE.  The control bit `sio`/`sioi` send under `SIO_CTRL = draw` (R167, R168; U8).  Log entry 4. -/
opaque Config.sioControlBit : Nat → Bit

/-- FREE VALUE.  Which of the two values a register keeps that `lio`/`lioi` names as both destinations: the
word if true, the control bit if false (R165; U7).  Log entry 5. -/
opaque Config.lioKeepsWord : Nat → Bool

end Sys2Proof
end

