-- ==== Sys2Proof/Syntax.lean ====
section
/-!
DEFINITION. The instructions: one constructor per row of spec/opcode_table.json, 54 in all
(spec/30_encoding.md R75).

The operands of a constructor stand in the order of the assembly template (R83) and carry the letters of the
row's pattern.  An operand has the width of its field (R76): a register address is 8 bits, an ALU, memory
or IO immediate 32, a branch distance 32 (format B) or 16 (format BI), a jump target 56, a shift or rotate amount
8 (R69: the bits above the low byte are ignored by the machine and are no part of the instruction).
The base register `m` of `lw`, `sw` and `sio` is an operand of its own: the assembler writes `REG_MEM`
there, the hardware takes whatever address byte 2 holds (R70).
-/

namespace Sys2Proof

/-- The formats of R62: the shape of the word that holds an instruction. -/
inductive Format where
  | J | B | BI | R3 | R2 | I | SH | M | MI | IO | N
  deriving DecidableEq, Repr

/-- The 54 instructions. -/
inductive Instr where
  /-- `0x01-JJJJJJ-JJJJJJJJ`: format J, R101 -/
  | jmp (j : BitVec 56)
  /-- `0x02-RRSS00-TTTTTTTT`: format B, R102 -/
  | beq (r s : RegAddr) (t : BitVec 32)
  /-- `0x03-RRSS00-TTTTTTTT`: format B, R103 -/
  | bneq (r s : RegAddr) (t : BitVec 32)
  /-- `0x04-RRSS00-TTTTTTTT`: format B, R104 -/
  | bl (r s : RegAddr) (t : BitVec 32)
  /-- `0x05-RRSS00-TTTTTTTT`: format B, R105 -/
  | bleq (r s : RegAddr) (t : BitVec 32)
  /-- `0x06-RRSS00-TTTTTTTT`: format B, R106 -/
  | bg (r s : RegAddr) (t : BitVec 32)
  /-- `0x07-RRSS00-TTTTTTTT`: format B, R107 -/
  | bgeq (r s : RegAddr) (t : BitVec 32)
  /-- `0x12-RRTTTT-SSSSSSSS`: format BI, R109 -/
  | beqi (r : RegAddr) (s : BitVec 32) (t : BitVec 16)
  /-- `0x13-RRTTTT-SSSSSSSS`: format BI, R110 -/
  | bneqi (r : RegAddr) (s : BitVec 32) (t : BitVec 16)
  /-- `0x14-RRTTTT-SSSSSSSS`: format BI, R111 -/
  | bli (r : RegAddr) (s : BitVec 32) (t : BitVec 16)
  /-- `0x15-RRTTTT-SSSSSSSS`: format BI, R112 -/
  | bleqi (r : RegAddr) (s : BitVec 32) (t : BitVec 16)
  /-- `0x16-RRTTTT-SSSSSSSS`: format BI, R113 -/
  | bgi (r : RegAddr) (s : BitVec 32) (t : BitVec 16)
  /-- `0x17-RRTTTT-SSSSSSSS`: format BI, R114 -/
  | bgeqi (r : RegAddr) (s : BitVec 32) (t : BitVec 16)
  /-- `0x40-MM00RR-IIIIIIII`: format M, R161 -/
  | lw (m : RegAddr) (i : BitVec 32) (r : RegAddr)
  /-- `0x41-MM00RR-IIIIIIII`: format M, R163 -/
  | sw (m : RegAddr) (i : BitVec 32) (r : RegAddr)
  /-- `0x42-IIIIII-IIIIIIII`: format J, R181 -/
  | call (i : BitVec 56)
  /-- `0x43-000000-00000000`: format N, R182 -/
  | ret
  /-- `0x44-00RRSS-IIIIIIII`: format IO, R165 -/
  | lio (i : BitVec 32) (r s : RegAddr)
  /-- `0x45-MM00RR-IIIIIIII`: format M, R167 -/
  | sio (m : RegAddr) (i : BitVec 32) (r : RegAddr)
  /-- `0x50-0000RR-IIIIIIII`: format MI, R162 -/
  | lwi (i : BitVec 32) (r : RegAddr)
  /-- `0x51-0000RR-IIIIIIII`: format MI, R164 -/
  | swi (i : BitVec 32) (r : RegAddr)
  /-- `0x54-00RRSS-IIIIIIII`: format IO, R166 -/
  | lioi (i : BitVec 32) (r s : RegAddr)
  /-- `0x55-0000RR-IIIIIIII`: format MI, R168 -/
  | sioi (i : BitVec 32) (r : RegAddr)
  /-- `0x80-RRSSTT-00000000`: format R3, R123 -/
  | add (r s t : RegAddr)
  /-- `0x81-RRSSTT-00000000`: format R3, R125 -/
  | sub (r s t : RegAddr)
  /-- `0x82-RRSSTT-00000000`: format R3, R127 -/
  | mul (r s t : RegAddr)
  /-- `0x83-RRSSTT-00000000`: format R3, R129 -/
  | and (r s t : RegAddr)
  /-- `0x84-RRSSTT-00000000`: format R3, R131 -/
  | or (r s t : RegAddr)
  /-- `0x85-RR00TT-00000000`: format R2, R133 -/
  | not (r t : RegAddr)
  /-- `0x86-RRSSTT-00000000`: format R3, R134 -/
  | xor (r s t : RegAddr)
  /-- `0x87-RRSSTT-00000000`: format R3, R136 -/
  | xnor (r s t : RegAddr)
  /-- `0x88-RRSSTT-00000000`: format R3, R138 -/
  | nor (r s t : RegAddr)
  /-- `0x89-RRSSTT-00000000`: format R3, R140 -/
  | ceq (r s t : RegAddr)
  /-- `0x8A-RRSSTT-00000000`: format R3, R142 -/
  | clt (r s t : RegAddr)
  /-- `0x8B-RRSSTT-00000000`: format R3, R144 -/
  | clte (r s t : RegAddr)
  /-- `0x8C-RRSSTT-00000000`: format R3, R146 -/
  | shr (r s t : RegAddr)
  /-- `0x8D-RRSSTT-00000000`: format R3, R148 -/
  | shl (r s t : RegAddr)
  /-- `0x8E-RRSSTT-00000000`: format R3, R150 -/
  | rr (r s t : RegAddr)
  /-- `0x8F-RRSSTT-00000000`: format R3, R152 -/
  | rl (r s t : RegAddr)
  /-- `0x90-RR00TT-SSSSSSSS`: format I, R124 -/
  | addi (r : RegAddr) (s : BitVec 32) (t : RegAddr)
  /-- `0x91-RR00TT-SSSSSSSS`: format I, R126 -/
  | subi (r : RegAddr) (s : BitVec 32) (t : RegAddr)
  /-- `0x92-RR00TT-SSSSSSSS`: format I, R128 -/
  | muli (r : RegAddr) (s : BitVec 32) (t : RegAddr)
  /-- `0x93-RR00TT-SSSSSSSS`: format I, R130 -/
  | andi (r : RegAddr) (s : BitVec 32) (t : RegAddr)
  /-- `0x94-RR00TT-SSSSSSSS`: format I, R132 -/
  | ori (r : RegAddr) (s : BitVec 32) (t : RegAddr)
  /-- `0x96-RR00TT-SSSSSSSS`: format I, R135 -/
  | xori (r : RegAddr) (s : BitVec 32) (t : RegAddr)
  /-- `0x97-RR00TT-SSSSSSSS`: format I, R137 -/
  | xnori (r : RegAddr) (s : BitVec 32) (t : RegAddr)
  /-- `0x98-RR00TT-SSSSSSSS`: format I, R139 -/
  | nori (r : RegAddr) (s : BitVec 32) (t : RegAddr)
  /-- `0x99-RR00TT-SSSSSSSS`: format I, R141 -/
  | ceqi (r : RegAddr) (s : BitVec 32) (t : RegAddr)
  /-- `0x9A-RR00TT-SSSSSSSS`: format I, R143 -/
  | clti (r : RegAddr) (s : BitVec 32) (t : RegAddr)
  /-- `0x9B-RR00TT-SSSSSSSS`: format I, R145 -/
  | cltei (r : RegAddr) (s : BitVec 32) (t : RegAddr)
  /-- `0x9C-RR00TT-000000SS`: format SH, R147 -/
  | shri (r : RegAddr) (s : BitVec 8) (t : RegAddr)
  /-- `0x9D-RR00TT-000000SS`: format SH, R149 -/
  | shli (r : RegAddr) (s : BitVec 8) (t : RegAddr)
  /-- `0x9E-RR00TT-000000SS`: format SH, R151 -/
  | rri (r : RegAddr) (s : BitVec 8) (t : RegAddr)
  /-- `0x9F-RR00TT-000000SS`: format SH, R153 -/
  | rli (r : RegAddr) (s : BitVec 8) (t : RegAddr)
  deriving DecidableEq, Repr

/-- The format of an instruction (the `format` column of R75). -/
def Instr.format (i : Instr) : Format :=
  match i with
  | .jmp _ => .J
  | .beq _ _ _ => .B
  | .bneq _ _ _ => .B
  | .bl _ _ _ => .B
  | .bleq _ _ _ => .B
  | .bg _ _ _ => .B
  | .bgeq _ _ _ => .B
  | .beqi _ _ _ => .BI
  | .bneqi _ _ _ => .BI
  | .bli _ _ _ => .BI
  | .bleqi _ _ _ => .BI
  | .bgi _ _ _ => .BI
  | .bgeqi _ _ _ => .BI
  | .lw _ _ _ => .M
  | .sw _ _ _ => .M
  | .call _ => .J
  | .ret => .N
  | .lio _ _ _ => .IO
  | .sio _ _ _ => .M
  | .lwi _ _ => .MI
  | .swi _ _ => .MI
  | .lioi _ _ _ => .IO
  | .sioi _ _ => .MI
  | .add _ _ _ => .R3
  | .sub _ _ _ => .R3
  | .mul _ _ _ => .R3
  | .and _ _ _ => .R3
  | .or _ _ _ => .R3
  | .not _ _ => .R2
  | .xor _ _ _ => .R3
  | .xnor _ _ _ => .R3
  | .nor _ _ _ => .R3
  | .ceq _ _ _ => .R3
  | .clt _ _ _ => .R3
  | .clte _ _ _ => .R3
  | .shr _ _ _ => .R3
  | .shl _ _ _ => .R3
  | .rr _ _ _ => .R3
  | .rl _ _ _ => .R3
  | .addi _ _ _ => .I
  | .subi _ _ _ => .I
  | .muli _ _ _ => .I
  | .andi _ _ _ => .I
  | .ori _ _ _ => .I
  | .xori _ _ _ => .I
  | .xnori _ _ _ => .I
  | .nori _ _ _ => .I
  | .ceqi _ _ _ => .I
  | .clti _ _ _ => .I
  | .cltei _ _ _ => .I
  | .shri _ _ _ => .SH
  | .shli _ _ _ => .SH
  | .rri _ _ _ => .SH
  | .rli _ _ _ => .SH

/-- The mnemonic of an instruction, as R75 spells it. -/
def Instr.mnemonic (i : Instr) : String :=
  match i with
  | .jmp _ => "jmp"
  | .beq _ _ _ => "beq"
  | .bneq _ _ _ => "bneq"
  | .bl _ _ _ => "bl"
  | .bleq _ _ _ => "bleq"
  | .bg _ _ _ => "bg"
  | .bgeq _ _ _ => "bgeq"
  | .beqi _ _ _ => "beqi"
  | .bneqi _ _ _ => "bneqi"
  | .bli _ _ _ => "bli"
  | .bleqi _ _ _ => "bleqi"
  | .bgi _ _ _ => "bgi"
  | .bgeqi _ _ _ => "bgeqi"
  | .lw _ _ _ => "lw"
  | .sw _ _ _ => "sw"
  | .call _ => "call"
  | .ret => "ret"
  | .lio _ _ _ => "lio"
  | .sio _ _ _ => "sio"
  | .lwi _ _ => "lwi"
  | .swi _ _ => "swi"
  | .lioi _ _ _ => "lioi"
  | .sioi _ _ => "sioi"
  | .add _ _ _ => "add"
  | .sub _ _ _ => "sub"
  | .mul _ _ _ => "mul"
  | .and _ _ _ => "and"
  | .or _ _ _ => "or"
  | .not _ _ => "not"
  | .xor _ _ _ => "xor"
  | .xnor _ _ _ => "xnor"
  | .nor _ _ _ => "nor"
  | .ceq _ _ _ => "ceq"
  | .clt _ _ _ => "clt"
  | .clte _ _ _ => "clte"
  | .shr _ _ _ => "shr"
  | .shl _ _ _ => "shl"
  | .rr _ _ _ => "rr"
  | .rl _ _ _ => "rl"
  | .addi _ _ _ => "addi"
  | .subi _ _ _ => "subi"
  | .muli _ _ _ => "muli"
  | .andi _ _ _ => "andi"
  | .ori _ _ _ => "ori"
  | .xori _ _ _ => "xori"
  | .xnori _ _ _ => "xnori"
  | .nori _ _ _ => "nori"
  | .ceqi _ _ _ => "ceqi"
  | .clti _ _ _ => "clti"
  | .cltei _ _ _ => "cltei"
  | .shri _ _ _ => "shri"
  | .shli _ _ _ => "shli"
  | .rri _ _ _ => "rri"
  | .rli _ _ _ => "rli"

end Sys2Proof
end

