-- ==== Sys2Proof/WellFormed.lean ====
section
/-!
DEFINITION. Well-formed instructions (spec/30_encoding.md R80 step 4; spec/10_state.md R21).

The fields of an instruction have the widths of the encoding, so the one thing left to check is that every
register-address field the instruction uses is below `NREG`.  `Instr.usedRegs` lists those fields in the
order the check is made: byte 2, byte 3, byte 4 (R80, R203).
-/

namespace Sys2Proof

/-- The register-address fields an instruction uses, in the order byte 2, byte 3, byte 4 (R25, R63 to R73).
Under `SIO_ADDR = imm`, `sio` does not use its base field (R167; log entry 14). -/
def Instr.usedRegs (c : Config) (i : Instr) : List RegAddr :=
  match i with
  | .jmp _ => []
  | .beq r s _ => [r, s]
  | .bneq r s _ => [r, s]
  | .bl r s _ => [r, s]
  | .bleq r s _ => [r, s]
  | .bg r s _ => [r, s]
  | .bgeq r s _ => [r, s]
  | .beqi r _ _ => [r]
  | .bneqi r _ _ => [r]
  | .bli r _ _ => [r]
  | .bleqi r _ _ => [r]
  | .bgi r _ _ => [r]
  | .bgeqi r _ _ => [r]
  | .lw m _ r => [m, r]
  | .sw m _ r => [m, r]
  | .call _ => []
  | .ret => []
  | .lio _ r s => [r, s]
  | .sio m _ r => if c.sioAddr = .basePlusImm then [m, r] else [r]
  | .lwi _ r => [r]
  | .swi _ r => [r]
  | .lioi _ r s => [r, s]
  | .sioi _ r => [r]
  | .add r s t => [r, s, t]
  | .sub r s t => [r, s, t]
  | .mul r s t => [r, s, t]
  | .and r s t => [r, s, t]
  | .or r s t => [r, s, t]
  | .not r t => [r, t]
  | .xor r s t => [r, s, t]
  | .xnor r s t => [r, s, t]
  | .nor r s t => [r, s, t]
  | .ceq r s t => [r, s, t]
  | .clt r s t => [r, s, t]
  | .clte r s t => [r, s, t]
  | .shr r s t => [r, s, t]
  | .shl r s t => [r, s, t]
  | .rr r s t => [r, s, t]
  | .rl r s t => [r, s, t]
  | .addi r _ t => [r, t]
  | .subi r _ t => [r, t]
  | .muli r _ t => [r, t]
  | .andi r _ t => [r, t]
  | .ori r _ t => [r, t]
  | .xori r _ t => [r, t]
  | .xnori r _ t => [r, t]
  | .nori r _ t => [r, t]
  | .ceqi r _ t => [r, t]
  | .clti r _ t => [r, t]
  | .cltei r _ t => [r, t]
  | .shri r _ t => [r, t]
  | .shli r _ t => [r, t]
  | .rri r _ t => [r, t]
  | .rli r _ t => [r, t]

/-- A register address is one of 0 .. NREG-1 (R21). -/
def Config.validReg (c : Config) (r : RegAddr) : Bool :=
  decide (r.toNat < c.nreg)

/-- Every register-address field the instruction uses is valid. -/
def Instr.wf (c : Config) (i : Instr) : Bool :=
  (i.usedRegs c).all c.validReg

end Sys2Proof
end

