-- ==== Sys2Proof/Decode.lean ====
section
/-!
DEFINITION. Decoding and encoding (spec/30_encoding.md R60 to R80).

An instruction is exactly one 64-bit word (R60).  The decoder looks the opcode byte up in the table of R75,
compares the documented-zero bits under `STRICT_DECODE` (R78), and extracts the fields of the row's format (R63
to R73).  It is total: every word yields an instruction or one of two named errors (R77, R80).  Step 4 of
R80, the check of the register addresses against `NREG`, is the first thing every meaning does
(`Machine.checkRegs`); it comes after decoding, as R203 orders it.
-/

namespace Sys2Proof

/-! ## Fields of an instruction word (spec/00_scope.md R7) -/

/-- Byte 1, the opcode: `w[63:56]`. -/
def opField (w : Word) : Byte := w.extractLsb' 56 8

/-- Byte 2: `w[55:48]`. -/
def b2Field (w : Word) : RegAddr := w.extractLsb' 48 8

/-- Byte 3: `w[47:40]`. -/
def b3Field (w : Word) : RegAddr := w.extractLsb' 40 8

/-- Byte 4: `w[39:32]`. -/
def b4Field (w : Word) : RegAddr := w.extractLsb' 32 8

/-- Bytes 5 to 8: `w[31:0]`. -/
def imm32Field (w : Word) : BitVec 32 := w.extractLsb' 0 32

/-- Bytes 2 to 8: `w[55:0]`. -/
def imm56Field (w : Word) : BitVec 56 := w.extractLsb' 0 56

/-- Bytes 3 and 4: `w[47:32]`, high byte in byte 3 (R65). -/
def imm16Field (w : Word) : BitVec 16 := w.extractLsb' 32 16

/-- The shift or rotate amount: `w[7:0]` (R69). -/
def imm8Field (w : Word) : BitVec 8 := w.extractLsb' 0 8

/-! ## The opcode table (R62, R75) -/

/-- The strict mask of a format: the opcode byte and the bits its pattern shows as zero (R62). -/
def Format.mask (f : Format) : Word :=
  match f with
  | .J => 0xFF00000000000000
  | .B => 0xFF0000FF00000000
  | .BI => 0xFF00000000000000
  | .R3 => 0xFF000000FFFFFFFF
  | .R2 => 0xFF00FF00FFFFFFFF
  | .I => 0xFF00FF0000000000
  | .SH => 0xFF00FF0000000000
  | .M => 0xFF00FF0000000000
  | .MI => 0xFFFFFF0000000000
  | .IO => 0xFFFF000000000000
  | .N => 0xFFFFFFFFFFFFFFFF

/-- The documented-zero fields of a format, as R78 names them, are all zero in `w`. -/
def Format.zeroFields (f : Format) (w : Word) : Prop :=
  match f with
  | .J | .BI => True
  | .B => b4Field w = 0
  | .R3 => imm32Field w = 0
  | .R2 => b3Field w = 0 ∧ imm32Field w = 0
  | .I | .SH | .M => b3Field w = 0
  | .MI => b2Field w = 0 ∧ b3Field w = 0
  | .IO => b2Field w = 0
  | .N => imm56Field w = 0

/-- One row of R75: the opcode byte, the format, and the instruction made of a word's fields. -/
structure OpRow where
  opcode : Byte
  format : Format
  build  : Word → Instr

/-- A row of format J (R63). -/
def rowJ (op : Byte) (mk : BitVec 56 → Instr) : OpRow :=
  ⟨op, .J, fun w => mk (imm56Field w)⟩

/-- A row of format B (R64). -/
def rowB (op : Byte) (mk : RegAddr → RegAddr → BitVec 32 → Instr) : OpRow :=
  ⟨op, .B, fun w => mk (b2Field w) (b3Field w) (imm32Field w)⟩

/-- A row of format BI (R65). -/
def rowBI (op : Byte) (mk : RegAddr → BitVec 32 → BitVec 16 → Instr) : OpRow :=
  ⟨op, .BI, fun w => mk (b2Field w) (imm32Field w) (imm16Field w)⟩

/-- A row of format R3 (R66). -/
def rowR3 (op : Byte) (mk : RegAddr → RegAddr → RegAddr → Instr) : OpRow :=
  ⟨op, .R3, fun w => mk (b2Field w) (b3Field w) (b4Field w)⟩

/-- A row of format R2 (R67). -/
def rowR2 (op : Byte) (mk : RegAddr → RegAddr → Instr) : OpRow :=
  ⟨op, .R2, fun w => mk (b2Field w) (b4Field w)⟩

/-- A row of format I (R68). -/
def rowI (op : Byte) (mk : RegAddr → BitVec 32 → RegAddr → Instr) : OpRow :=
  ⟨op, .I, fun w => mk (b2Field w) (imm32Field w) (b4Field w)⟩

/-- A row of format SH (R69). -/
def rowSH (op : Byte) (mk : RegAddr → BitVec 8 → RegAddr → Instr) : OpRow :=
  ⟨op, .SH, fun w => mk (b2Field w) (imm8Field w) (b4Field w)⟩

/-- A row of format M (R70). -/
def rowM (op : Byte) (mk : RegAddr → BitVec 32 → RegAddr → Instr) : OpRow :=
  ⟨op, .M, fun w => mk (b2Field w) (imm32Field w) (b4Field w)⟩

/-- A row of format MI (R71). -/
def rowMI (op : Byte) (mk : BitVec 32 → RegAddr → Instr) : OpRow :=
  ⟨op, .MI, fun w => mk (imm32Field w) (b4Field w)⟩

/-- A row of format IO (R72). -/
def rowIO (op : Byte) (mk : BitVec 32 → RegAddr → RegAddr → Instr) : OpRow :=
  ⟨op, .IO, fun w => mk (imm32Field w) (b3Field w) (b4Field w)⟩

/-- A row of format N (R73). -/
def rowN (op : Byte) (i : Instr) : OpRow :=
  ⟨op, .N, fun _ => i⟩

/-- Jump and branch rows of R75. -/
def jumpRows : List OpRow := [
  rowJ 0x01 .jmp,
  rowB 0x02 .beq,
  rowB 0x03 .bneq,
  rowB 0x04 .bl,
  rowB 0x05 .bleq,
  rowB 0x06 .bg,
  rowB 0x07 .bgeq,
  rowBI 0x12 .beqi,
  rowBI 0x13 .bneqi,
  rowBI 0x14 .bli,
  rowBI 0x15 .bleqi,
  rowBI 0x16 .bgi,
  rowBI 0x17 .bgeqi]

/-- Memory, IO, call and return rows of R75. -/
def memRows : List OpRow := [
  rowM 0x40 .lw,
  rowM 0x41 .sw,
  rowJ 0x42 .call,
  rowN 0x43 .ret,
  rowIO 0x44 .lio,
  rowM 0x45 .sio,
  rowMI 0x50 .lwi,
  rowMI 0x51 .swi,
  rowIO 0x54 .lioi,
  rowMI 0x55 .sioi]

/-- Register-form ALU rows of R75. -/
def aluRows : List OpRow := [
  rowR3 0x80 .add,
  rowR3 0x81 .sub,
  rowR3 0x82 .mul,
  rowR3 0x83 .and,
  rowR3 0x84 .or,
  rowR2 0x85 .not,
  rowR3 0x86 .xor,
  rowR3 0x87 .xnor,
  rowR3 0x88 .nor,
  rowR3 0x89 .ceq,
  rowR3 0x8A .clt,
  rowR3 0x8B .clte,
  rowR3 0x8C .shr,
  rowR3 0x8D .shl,
  rowR3 0x8E .rr,
  rowR3 0x8F .rl]

/-- Immediate-form ALU rows of R75. -/
def aluImmRows : List OpRow := [
  rowI 0x90 .addi,
  rowI 0x91 .subi,
  rowI 0x92 .muli,
  rowI 0x93 .andi,
  rowI 0x94 .ori,
  rowI 0x96 .xori,
  rowI 0x97 .xnori,
  rowI 0x98 .nori,
  rowI 0x99 .ceqi,
  rowI 0x9A .clti,
  rowI 0x9B .cltei,
  rowSH 0x9C .shri,
  rowSH 0x9D .shli,
  rowSH 0x9E .rri,
  rowSH 0x9F .rli]

/-- The complete list of defined opcodes: 54 rows (R75). -/
def opTable : List OpRow :=
  jumpRows ++ memRows ++ aluRows ++ aluImmRows

/-! ## Decoding -/

/-- The two ways a word fails to decode (R77, R78). -/
inductive DecodeError where
  /-- the opcode byte is not one of the 54 defined ones -/
  | illegalInstruction (w : Word)
  /-- the opcode is defined but a documented-zero bit is set, under `STRICT_DECODE` -/
  | reservedEncoding (w : Word)
  deriving DecidableEq, Repr

/-- The row of R75 whose opcode is the word's first byte. -/
def rowOf (w : Word) : Option OpRow :=
  opTable.find? fun row => row.opcode == opField w

/-- The match value of a row: the opcode in byte 1, zero elsewhere (R62, opcode_table.json). -/
def OpRow.matchValue (row : OpRow) : Word :=
  row.opcode ++ 0#56

/-- Decoding, steps 1 to 3 of R80. -/
def decode (c : Config) (w : Word) : Except DecodeError Instr :=
  match rowOf w with
  | none => .error (.illegalInstruction w)
  | some row =>
    if c.strictDecode && (w &&& row.format.mask) != row.matchValue then .error (.reservedEncoding w)
    else .ok (row.build w)

/-- The instruction the decoder reads from the low `nbits` bits of `w`, under the default parameters.  An
instruction is one word, so bit 0 of `w` is bit 0 of the instruction (R6, R60). -/
def decodeTableWord (nbits w : Nat) : Option Instr :=
  match decode Config.default (BitVec.ofNat 64 (w % 2 ^ nbits)) with
  | .ok i => some i
  | .error _ => none

/-! ## Encoding, written from the pattern column of R75 -/

/-- A word of formats B, R3, R2, I, SH, M, MI, IO and N: bytes 1 to 4 and the last four bytes. -/
def packBytes (op b2 b3 b4 : Byte) (imm : BitVec 32) : Word :=
  op ++ b2 ++ b3 ++ b4 ++ imm

/-- A word of format J. -/
def packJump (op : Byte) (j : BitVec 56) : Word :=
  op ++ j

/-- A word of format BI: the distance fills bytes 3 and 4. -/
def packShort (op r : Byte) (t : BitVec 16) (s : BitVec 32) : Word :=
  op ++ r ++ t ++ s

/-- The opcode byte of an instruction (the first column of R75). -/
def Instr.opcode (i : Instr) : Byte :=
  match i with
  | .jmp _ => 0x01
  | .beq _ _ _ => 0x02
  | .bneq _ _ _ => 0x03
  | .bl _ _ _ => 0x04
  | .bleq _ _ _ => 0x05
  | .bg _ _ _ => 0x06
  | .bgeq _ _ _ => 0x07
  | .beqi _ _ _ => 0x12
  | .bneqi _ _ _ => 0x13
  | .bli _ _ _ => 0x14
  | .bleqi _ _ _ => 0x15
  | .bgi _ _ _ => 0x16
  | .bgeqi _ _ _ => 0x17
  | .lw _ _ _ => 0x40
  | .sw _ _ _ => 0x41
  | .call _ => 0x42
  | .ret => 0x43
  | .lio _ _ _ => 0x44
  | .sio _ _ _ => 0x45
  | .lwi _ _ => 0x50
  | .swi _ _ => 0x51
  | .lioi _ _ _ => 0x54
  | .sioi _ _ => 0x55
  | .add _ _ _ => 0x80
  | .sub _ _ _ => 0x81
  | .mul _ _ _ => 0x82
  | .and _ _ _ => 0x83
  | .or _ _ _ => 0x84
  | .not _ _ => 0x85
  | .xor _ _ _ => 0x86
  | .xnor _ _ _ => 0x87
  | .nor _ _ _ => 0x88
  | .ceq _ _ _ => 0x89
  | .clt _ _ _ => 0x8A
  | .clte _ _ _ => 0x8B
  | .shr _ _ _ => 0x8C
  | .shl _ _ _ => 0x8D
  | .rr _ _ _ => 0x8E
  | .rl _ _ _ => 0x8F
  | .addi _ _ _ => 0x90
  | .subi _ _ _ => 0x91
  | .muli _ _ _ => 0x92
  | .andi _ _ _ => 0x93
  | .ori _ _ _ => 0x94
  | .xori _ _ _ => 0x96
  | .xnori _ _ _ => 0x97
  | .nori _ _ _ => 0x98
  | .ceqi _ _ _ => 0x99
  | .clti _ _ _ => 0x9A
  | .cltei _ _ _ => 0x9B
  | .shri _ _ _ => 0x9C
  | .shli _ _ _ => 0x9D
  | .rri _ _ _ => 0x9E
  | .rli _ _ _ => 0x9F

/-- The word an instruction is encoded as.  The ignored bits of format SH are written as zeros, as the
pattern line shows them (R69). -/
def encode (i : Instr) : Word :=
  match i with
  | .jmp j => packJump 0x01 j
  | .beq r s t => packBytes 0x02 r s 0 t
  | .bneq r s t => packBytes 0x03 r s 0 t
  | .bl r s t => packBytes 0x04 r s 0 t
  | .bleq r s t => packBytes 0x05 r s 0 t
  | .bg r s t => packBytes 0x06 r s 0 t
  | .bgeq r s t => packBytes 0x07 r s 0 t
  | .beqi r s t => packShort 0x12 r t s
  | .bneqi r s t => packShort 0x13 r t s
  | .bli r s t => packShort 0x14 r t s
  | .bleqi r s t => packShort 0x15 r t s
  | .bgi r s t => packShort 0x16 r t s
  | .bgeqi r s t => packShort 0x17 r t s
  | .lw m i r => packBytes 0x40 m 0 r i
  | .sw m i r => packBytes 0x41 m 0 r i
  | .call i => packJump 0x42 i
  | .ret => packBytes 0x43 0 0 0 0
  | .lio i r s => packBytes 0x44 0 r s i
  | .sio m i r => packBytes 0x45 m 0 r i
  | .lwi i r => packBytes 0x50 0 0 r i
  | .swi i r => packBytes 0x51 0 0 r i
  | .lioi i r s => packBytes 0x54 0 r s i
  | .sioi i r => packBytes 0x55 0 0 r i
  | .add r s t => packBytes 0x80 r s t 0
  | .sub r s t => packBytes 0x81 r s t 0
  | .mul r s t => packBytes 0x82 r s t 0
  | .and r s t => packBytes 0x83 r s t 0
  | .or r s t => packBytes 0x84 r s t 0
  | .not r t => packBytes 0x85 r 0 t 0
  | .xor r s t => packBytes 0x86 r s t 0
  | .xnor r s t => packBytes 0x87 r s t 0
  | .nor r s t => packBytes 0x88 r s t 0
  | .ceq r s t => packBytes 0x89 r s t 0
  | .clt r s t => packBytes 0x8A r s t 0
  | .clte r s t => packBytes 0x8B r s t 0
  | .shr r s t => packBytes 0x8C r s t 0
  | .shl r s t => packBytes 0x8D r s t 0
  | .rr r s t => packBytes 0x8E r s t 0
  | .rl r s t => packBytes 0x8F r s t 0
  | .addi r s t => packBytes 0x90 r 0 t s
  | .subi r s t => packBytes 0x91 r 0 t s
  | .muli r s t => packBytes 0x92 r 0 t s
  | .andi r s t => packBytes 0x93 r 0 t s
  | .ori r s t => packBytes 0x94 r 0 t s
  | .xori r s t => packBytes 0x96 r 0 t s
  | .xnori r s t => packBytes 0x97 r 0 t s
  | .nori r s t => packBytes 0x98 r 0 t s
  | .ceqi r s t => packBytes 0x99 r 0 t s
  | .clti r s t => packBytes 0x9A r 0 t s
  | .cltei r s t => packBytes 0x9B r 0 t s
  | .shri r s t => packBytes 0x9C r 0 t (s.setWidth 32)
  | .shli r s t => packBytes 0x9D r 0 t (s.setWidth 32)
  | .rri r s t => packBytes 0x9E r 0 t (s.setWidth 32)
  | .rli r s t => packBytes 0x9F r 0 t (s.setWidth 32)

end Sys2Proof
end

