-- ==== Sys2Proof/Machine/State.lean ====
section
/-!
DEFINITION. The state of the machine (spec/10_state.md R20 to R35), its faults (spec/60_exceptions.md R201)
and its reset (spec/10_state.md R34, spec/70_reset_and_hazards.md R230).

The machine has no flags (R28), no control or status registers (R29), no second register file and no hidden
state (R33).  The program store and the parameters are, in the spec, parameters of the run and not state
(R20, R32); they stand in `State` because a step is a function of the state alone, and no step changes them.
-/

namespace Sys2Proof.Machine

/-- The seven faults of R201: "the seven faults of the table below are all there are".  Each is terminal and
leaves every piece of state as it was (R200).  Safe: where the source gives no meaning the model stops. -/
inductive Fault where
  /-- F1, by instruction fetch: a step begins with `pc > PROG_LEN`.  Safe. -/
  | fetchOutOfRange (pc : Word)
  /-- F2, by decode: the opcode is not one of the 54 defined ones.  Safe. -/
  | illegalInstruction (w : Word)
  /-- F3, by decode under `STRICT_DECODE`: a documented-zero bit is set.  Safe. -/
  | reservedEncoding (w : Word)
  /-- F4, by every instruction with a register field: the address is `NREG` or more.  Safe. -/
  | registerOutOfRange (r : RegAddr)
  /-- F5, by `lw`, `lwi`, `ret`: the data-memory word at this address holds no value.  Safe.  The register
  half of F5 is not raised: every register holds a value from reset on (log entry 1). -/
  | uninitRead (a : Word)
  /-- F6, by `lw`, `lwi`, `sw`, `swi`, `call`, `ret`: the word address is `MEM_WORDS` or more.  Safe. -/
  | memOutOfRange (a : Word)
  /-- F7, by `lio`, `lioi`, `sio`, `sioi`: the device number is outside `DEVICES`.  Safe. -/
  | noDevice (dev : Word)
  deriving DecidableEq, Repr

/-- The reasons a step is refused. -/
inductive Refusal where
  /-- The instruction has no meaning in the model yet; raised by no arm of this model.  Safe. -/
  | notModelled (mnemonic : String)
  /-- The configuration is one the spec says to refuse: `REG_MEM = REG_SP`, either equal to 0, or either
  `NREG` or more (93_implementation_defined.md U24), or NREG outside 1 .. 256 (R21).  Raised by `step`
  before it looks at the program; never at the default parameters.  Safe. -/
  | badConfiguration
  deriving DecidableEq, Repr

/-- The machine status of R35. -/
inductive Status where
  | running
  /-- the normal end of a run (R234) -/
  | halted
  /-- the terminal state a fault leads to (R200) -/
  | faulted (f : Fault)
  deriving DecidableEq, Repr

/-- An entry of the IO trace (R31). -/
inductive IoEvent where
  | read (dev v : Word) (c : Bit)
  | write (dev v : Word) (c : Bit)
  deriving DecidableEq, Repr

/-- The data memory as a sorted list of byte cells: word address `a` occupies the cells `8 * a` to
`8 * a + 7` (log entry 7).  `Memory.wf` is its canonical form. -/
abbrev Memory := List Host.Cell

/-- The canonical form of a memory: addresses strictly rising, and no cell equal to what an unlisted address
reads as. -/
abbrev Memory.wf (fill : Option Byte) (m : Memory) : Prop :=
  m.Pairwise (fun x y => x.1 < y.1) ∧ ∀ x ∈ m, fill ≠ some x.2

/-- The state of the machine. -/
structure State where
  /-- the register file: 256 entries of 64 bits, of which the first `NREG` exist (R21) -/
  regs    : Vector Word 256
  /-- the program counter, in instruction words (R27) -/
  pc      : Word
  /-- the data memory (R30) -/
  mem     : Memory
  /-- the IO reads and writes performed so far, oldest first (R13, R31) -/
  iotrace : List IoEvent
  /-- the machine status (R35) -/
  status  : Status
  /-- the program store `Prog[0 .. PROG_LEN-1]` (R32) -/
  prog    : List Word
  /-- the parameters of the run (R5) -/
  cfg     : Config
  /-- the MODEL's own: the answers the host has ready for the next IO reads, oldest first (R214; log entry 3) -/
  ioIn    : List IoAnswer
  /-- the MODEL's own: how many IO accesses have drawn from the free values so far (log entry 3) -/
  draws   : Nat
  deriving DecidableEq, Repr

/-- The machine right after reset (R34, R230): pc 0, empty trace, running, no memory word written.  The spec
leaves the registers unspecified; they hold 0 here (`REG_RESET = zero`; DESIGN CHOICE, log entry 1).  The program
store is empty: the host supplies the program before the run (R214; log entry 12). -/
def State.reset : State where
  regs := Vector.replicate 256 0
  pc := 0
  mem := []
  iotrace := []
  status := .running
  prog := []
  cfg := Config.default
  ioIn := []
  draws := 0

end Sys2Proof.Machine
end

