-- ==== Sys2Proof/Machine/Memory.lean ====
section
/-!
DEFINITION. The data memory's own operations (spec/10_state.md R30, spec/20_memory.md R40 to R45).

The machine reads and writes whole 64-bit words at word addresses; nothing narrower exists (R40).  A word is
kept as eight byte cells, the low-order byte in the lowest cell.  No instruction can observe that order
(R41; log entry 7).  `fill` is what an unlisted cell reads as (`Config.memFill`).
-/

namespace Sys2Proof.Machine

/-- The byte in cell `k`, or what an unlisted cell reads as. -/
def Memory.readByte (fill : Option Byte) (m : Memory) (k : Nat) : Option Byte :=
  match m with
  | [] => fill
  | (a, b) :: rest => if a = k then some b else Memory.readByte fill rest k

/-- Put `b` in cell `k` of a sorted list. -/
def Memory.insertByte (m : Memory) (k : Nat) (b : Byte) : Memory :=
  match m with
  | [] => [(k, b)]
  | (a, c) :: rest =>
    if k < a then (k, b) :: (a, c) :: rest
    else if k = a then (k, b) :: rest
    else (a, c) :: Memory.insertByte rest k b

/-- Take cell `k` out of the list. -/
def Memory.eraseByte (m : Memory) (k : Nat) : Memory :=
  m.filter fun x => x.1 != k

/-- Write `b` to cell `k`, keeping the canonical form: writing what an unlisted cell reads as removes the
entry. -/
def Memory.writeByte (fill : Option Byte) (m : Memory) (k : Nat) (b : Byte) : Memory :=
  if fill = some b then m.eraseByte k else m.insertByte k b

/-- Byte `k` of a word, counted from its low-order end. -/
def wordByte (v : Word) (k : Nat) : Byte :=
  v.extractLsb' (8 * k) 8

/-- The word made of eight bytes, the low-order one first. -/
def wordOfBytes (b0 b1 b2 b3 b4 b5 b6 b7 : Byte) : Word :=
  b7 ++ b6 ++ b5 ++ b4 ++ b3 ++ b2 ++ b1 ++ b0

/-- The word at word address `a`; none if a cell of it holds no value. -/
def Memory.readWord (fill : Option Byte) (m : Memory) (a : Nat) : Option Word := do
  let b0 ← m.readByte fill (8 * a)
  let b1 ← m.readByte fill (8 * a + 1)
  let b2 ← m.readByte fill (8 * a + 2)
  let b3 ← m.readByte fill (8 * a + 3)
  let b4 ← m.readByte fill (8 * a + 4)
  let b5 ← m.readByte fill (8 * a + 5)
  let b6 ← m.readByte fill (8 * a + 6)
  let b7 ← m.readByte fill (8 * a + 7)
  pure (wordOfBytes b0 b1 b2 b3 b4 b5 b6 b7)

/-- Write the low `n` bytes of `v` to the `n` cells from `8 * a` on. -/
def Memory.writeBytes (fill : Option Byte) (m : Memory) (a : Nat) (v : Word) (n : Nat) : Memory :=
  match n with
  | 0 => m
  | k + 1 => (Memory.writeBytes fill m a v k).writeByte fill (8 * a + k) (wordByte v k)

/-- Write the word `v` at word address `a`. -/
def Memory.writeWord (fill : Option Byte) (m : Memory) (a : Nat) (v : Word) : Memory :=
  m.writeBytes fill a v 8

end Sys2Proof.Machine
end

