-- ==== Sys2Proof/Machine/Ops.lean ====
section
/-!
DEFINITION. The named operations the meanings are made of: faults (spec/60_exceptions.md R200 to R203), registers
(spec/10_state.md R21 to R26), the program counter (R27), data memory (spec/00_scope.md R12), IO ports (R13, R31), the
function stack (spec/43_call_return.md R180), and fetching an instruction (R15).

Every meaning reads the state before the instruction and builds its next state from it, so all reads come
before all writes (R15, decision D26), and a fault keeps nothing of the instruction (R14).
-/

namespace Sys2Proof.Machine

/-- What a meaning answers. -/
abbrev Result := Host.Outcome State Fault Refusal

/-! ## Faults (the machine has no trap: R204) -/

/-- `raise F(info)` of R14: the instruction stops at once and keeps nothing. -/
def raise (f : Fault) : Result := .fault f

/-- Go on with a value, or raise the fault that stands in its place. -/
def orRaise {α : Type} (x : Except Fault α) (k : α → Result) : Result :=
  match x with
  | .ok v => k v
  | .error f => raise f

/-- The terminal state a fault leads to (R200): nothing changed but the status. -/
def State.faultedBy (s : State) (f : Fault) : State := { s with status := .faulted f }

/-! ## Registers -/

/-- Whether register address `r` is the register hard-wired to zero (R22). -/
def State.isNptr (s : State) (r : RegAddr) : Bool := s.cfg.nptrZero && r == 0

/-- `x[r]` (R10, R22): 0 for `nptr`, else the register's content. -/
def State.readReg (s : State) (r : RegAddr) : Word :=
  if s.isNptr r then 0 else s.regs[r.toNat]

/-- Put a value in entry `r` of the register file. -/
def State.setReg (s : State) (r : RegAddr) (v : Word) : State := { s with regs := s.regs.set r.toNat v }

/-- `x[r] <- v` (R10, R22): discarded for `nptr`. -/
def State.writeReg (s : State) (r : RegAddr) (v : Word) : State :=
  if s.isNptr r then s else s.setReg r v

/-- The register-address check every instruction makes first, over the fields it uses in the order byte 2,
byte 3, byte 4 (R21, R80 step 4, R203). -/
def checkRegs (s : State) (fields : List RegAddr) (k : Result) : Result :=
  match fields.find? fun r => !s.cfg.validReg r with
  | some r => raise (.registerOutOfRange r)
  | none => k

/-! ## Program counter -/

/-- `pc <- target`. -/
def State.setPc (s : State) (target : Word) : State := { s with pc := target }

/-- The address of the next instruction in sequence (R15 "next", R27). -/
def State.nextPc (s : State) : Word := s.pc + Config.pcStep

/-- `pc <- pc + PC_STEP`, modulo 2^64. -/
def State.advance (s : State) : State := s.setPc s.nextPc

/-! ## Data memory -/

/-- Put a memory in place of the data memory. -/
def State.setMem (s : State) (m : Memory) : State := { s with mem := m }

/-- `MemRead(a, 8)` (R12): the bound first, then the uninitialised word (R203). -/
def State.memRead (s : State) (a : Word) : Except Fault Word :=
  if s.cfg.memWords ≤ a.toNat then .error (.memOutOfRange a)
  else
    match s.mem.readWord s.cfg.memFill a.toNat with
    | some v => .ok v
    | none => .error (.uninitRead a)

/-- `MemWrite(a, 8, v)` (R12). -/
def State.memWrite (s : State) (a v : Word) : Except Fault State :=
  if s.cfg.memWords ≤ a.toNat then .error (.memOutOfRange a)
  else .ok (s.setMem (s.mem.writeWord s.cfg.memFill a.toNat v))

/-! ## IO ports -/

/-- What the device answers to the next read: the host's next answer, or a free value (R31; log entry 3). -/
def State.nextAnswer (s : State) (dev : Word) : IoAnswer :=
  match s.ioIn with
  | a :: _ => a
  | [] => Config.ioAnswer s.draws dev

/-- One IO access has taken place: it is appended to the trace (R13). -/
def State.recordIo (s : State) (e : IoEvent) : State :=
  { s with iotrace := s.iotrace ++ [e], draws := s.draws + 1 }

/-- The host's next answer has been taken. -/
def State.dropAnswer (s : State) : State := { s with ioIn := s.ioIn.tail }

/-- `IORead(dev)` (R13): performed once, recorded, and the answer taken. -/
def State.ioRead (s : State) (dev : Word) : Except Fault (IoAnswer × State) :=
  if s.cfg.devices.answers dev then
    let a := s.nextAnswer dev
    .ok (a, (s.recordIo (.read dev a.word a.ctrl)).dropAnswer)
  else .error (.noDevice dev)

/-- `IOWrite(dev, v, c)` (R13): performed once and recorded. -/
def State.ioWrite (s : State) (dev v : Word) (c : Bit) : Except Fault State :=
  if s.cfg.devices.answers dev then .ok (s.recordIo (.write dev v c)) else .error (.noDevice dev)

/-- The control bit `sio` and `sioi` send (R167, R168; log entry 4). -/
def State.sioControl (s : State) : Bit :=
  match s.cfg.sioCtrl with
  | .draw => Config.sioControlBit s.draws
  | .fixed c => c

/-- The two register writes of an IO read (R165): the word to `r`, the control bit as a 64-bit 0 or 1 to `q`.
Where both are the same register, `keepsWord` says which of the two values it holds (U7; log entry 5). -/
def State.writePair (s : State) (r q : RegAddr) (a : IoAnswer) (keepsWord : Bool) : State :=
  if r = q then s.writeReg r (if keepsWord then a.word else a.ctrl.setWidth 64)
  else (s.writeReg r a.word).writeReg q (a.ctrl.setWidth 64)

/-! ## The function stack (R180 to R182) -/

/-- The content of the stack pointer register (R24). -/
def State.sp (s : State) : Word := s.readReg s.cfg.regSp

/-- The word address a push stores to. -/
def State.pushAddr (s : State) : Word :=
  match s.cfg.stackDir with
  | .downPre => s.sp - 1
  | .upPost => s.sp

/-- What the stack pointer becomes by a push. -/
def State.pushedSp (s : State) : Word :=
  match s.cfg.stackDir with
  | .downPre => s.sp - 1
  | .upPost => s.sp + 1

/-- The word address a pop loads from. -/
def State.popAddr (s : State) : Word :=
  match s.cfg.stackDir with
  | .downPre => s.sp
  | .upPost => s.sp - 1

/-- What the stack pointer becomes by a pop. -/
def State.poppedSp (s : State) : Word :=
  match s.cfg.stackDir with
  | .downPre => s.sp + 1
  | .upPost => s.sp - 1

/-- Push a word: store it, then update the stack pointer. -/
def State.push (s : State) (v : Word) : Except Fault State :=
  match s.memWrite s.pushAddr v with
  | .ok t => .ok (t.writeReg s.cfg.regSp s.pushedSp)
  | .error f => .error f

/-- Pop a word: load it, then update the stack pointer. -/
def State.pop (s : State) : Except Fault (Word × State) :=
  match s.memRead s.popAddr with
  | .ok v => .ok (v, s.writeReg s.cfg.regSp s.poppedSp)
  | .error f => .error f

/-- The program address `call` saves (R181). -/
def State.savedPc (s : State) : Word :=
  match s.cfg.callSaves with
  | .pcPlusStep => s.nextPc
  | .pc => s.pc

/-- The program address a popped word returns to (R182). -/
def State.returnPc (s : State) (v : Word) : Word :=
  match s.cfg.callSaves with
  | .pcPlusStep => v
  | .pc => v + Config.pcStep

/-! ## Fetch and decode (R15, R203) -/

/-- The fault a word that does not decode raises. -/
def faultOfDecode (e : DecodeError) : Fault :=
  match e with
  | .illegalInstruction w => .illegalInstruction w
  | .reservedEncoding w => .reservedEncoding w

/-- `Prog[pc]` (R15, R234). -/
def State.fetch (s : State) : Except Fault Word :=
  match s.prog[s.pc.toNat]? with
  | some w => .ok w
  | none => .error (.fetchOutOfRange s.pc)

/-- The instruction at the program counter. -/
def State.fetchInstr (s : State) : Except Fault Instr :=
  match s.fetch with
  | .error f => .error f
  | .ok w =>
    match decode s.cfg w with
    | .ok i => .ok i
    | .error e => .error (faultOfDecode e)

/-- The run is at its normal end: `pc = PROG_LEN` (R234). -/
def State.atEnd (s : State) : Bool := s.pc.toNat == s.prog.length

/-- `status` becomes `Halted` (R35, R234). -/
def State.halt (s : State) : State := { s with status := .halted }

/-- The program with word `w` at address `a`, made long enough to hold it. -/
def placeWord (prog : List Word) (a : Nat) (w : Word) : List Word :=
  (prog ++ List.replicate (a + 1 - prog.length) 0).set a w

end Sys2Proof.Machine
end

