-- ==== Sys2Proof/Machine/Operands.lean ====
section
/-!
DEFINITION. Operand forms: how a field of an instruction becomes a 64-bit value (spec/30_encoding.md R76).

The only addressing modes are base register plus immediate (format M) and absolute immediate (formats MI and
IO); there are no register pairs, no scaled index, no auto-increment (R76).
-/

namespace Sys2Proof.Machine

/-- `ext(k, v)` (R11): zero or sign extension to 64 bits. -/
def ext {n : Nat} (k : Ext) (v : BitVec n) : Word :=
  match k with
  | .zext => v.setWidth 64
  | .sext => v.signExtend 64

/-- A 32-bit ALU operand or branch comparand: `ext(EXT_IMM, S)` (R108, R121). -/
def State.immOperand (s : State) (imm : BitVec 32) : Word := ext s.cfg.extImm imm

/-- The address a taken branch goes to: `base + ext(EXT_BR, T)` modulo 2^64 (R100). -/
def State.branchTarget {n : Nat} (s : State) (dist : BitVec n) : Word :=
  match s.cfg.brBase with
  | .pc => s.pc + ext s.cfg.extBr dist
  | .pcPlusStep => s.nextPc + ext s.cfg.extBr dist

/-- An absolute 56-bit program address, unsigned (R101, R181). -/
def absTarget (j : BitVec 56) : Word := j.setWidth 64

/-- The direct form of an address or device number: `ext(EXT_OFF, I)` (R160). -/
def State.directAddr (s : State) (imm : BitVec 32) : Word := ext s.cfg.extOff imm

/-- The base form: `x[M] + ext(EXT_OFF, I)` modulo 2^64 (R45, R160). -/
def State.baseAddr (s : State) (m : RegAddr) (imm : BitVec 32) : Word :=
  s.readReg m + ext s.cfg.extOff imm

/-- The device number of `sio` (R167): the base form, or the immediate under `SIO_ADDR = imm`. -/
def State.sioDev (s : State) (m : RegAddr) (imm : BitVec 32) : Word :=
  match s.cfg.sioAddr with
  | .basePlusImm => s.baseAddr m imm
  | .imm => s.directAddr imm

/-- The shift or rotate amount of the register form: the low byte of the register (R122). -/
def shiftAmount (b : Word) : BitVec 8 := b.setWidth 8

/-- The number of places `shr` and `shl` move, and none where the result is 0 (`SHIFT_OVER`, R122). -/
def shiftPlaces (k : ShiftOver) (n : BitVec 8) : Option Nat :=
  if n.toNat < 64 then some n.toNat
  else
    match k with
    | .zero => none
    | .mod64 => some (n.toNat % 64)

/-- `shr`: a logical right shift (R146). -/
def shiftRight (k : ShiftOver) (a : Word) (n : BitVec 8) : Word :=
  match shiftPlaces k n with
  | some p => a >>> p
  | none => 0

/-- `shl`: a left shift (R148). -/
def shiftLeft (k : ShiftOver) (a : Word) (n : BitVec 8) : Word :=
  match shiftPlaces k n with
  | some p => a <<< p
  | none => 0

/-- `rr`: rotation to the right by the amount modulo 64 (R150). -/
def rotRight (a : Word) (n : BitVec 8) : Word := a.rotateRight (n.toNat % 64)

/-- `rl`: rotation to the left by the amount modulo 64 (R152). -/
def rotLeft (a : Word) (n : BitVec 8) : Word := a.rotateLeft (n.toNat % 64)

end Sys2Proof.Machine
end

