-- ==== Sys2Proof/Machine/Alu.lean ====
section
/-!
DEFINITION. ALU operations (spec/41_alu.md): every one reads one or two operands, writes one register and goes to the
next instruction.  None touches memory or IO, and none faults on its operand values (R120).
-/

namespace Sys2Proof.Machine

/-- Write an ALU result to its target and go on (R120): a write to `nptr` is discarded. -/
def aluWrite (s : State) (t : RegAddr) (v : Word) : State := (s.writeReg t v).advance

/-- Register form, formats R3 (R120). -/
def aluReg (f : Word → Word → Word) (r q t : RegAddr) (s : State) : Result :=
  checkRegs s [r, q, t] (.next (aluWrite s t (f (s.readReg r) (s.readReg q))))

/-- Immediate form, format I (R121). -/
def aluImm (f : Word → Word → Word) (r : RegAddr) (imm : BitVec 32) (t : RegAddr) (s : State) : Result :=
  checkRegs s [r, t] (.next (aluWrite s t (f (s.readReg r) (s.immOperand imm))))

/-- Shift or rotate by a register: the amount is the low byte of the second operand (R122). -/
def shiftReg (f : Word → BitVec 8 → Word) (r q t : RegAddr) (s : State) : Result :=
  aluReg (fun a b => f a (shiftAmount b)) r q t s

/-- Shift or rotate by an immediate byte, format SH (R122). -/
def shiftImm (f : Word → BitVec 8 → Word) (r : RegAddr) (n : BitVec 8) (t : RegAddr) (s : State) : Result :=
  checkRegs s [r, t] (.next (aluWrite s t (f (s.readReg r) n)))

/-! ## The operations -/

/-- `R + S` modulo 2^64 (R123). -/
def opAdd (a b : Word) : Word := a + b

/-- `R - S` modulo 2^64 (R125). -/
def opSub (a b : Word) : Word := a - b

/-- The low 64 bits of `R * S` (R127). -/
def opMul (a b : Word) : Word := a * b

/-- Bitwise and (R129). -/
def opAnd (a b : Word) : Word := a &&& b

/-- Bitwise or (R131). -/
def opOr (a b : Word) : Word := a ||| b

/-- Bitwise not (R133). -/
def opNot (a : Word) : Word := ~~~a

/-- Bitwise xor (R134). -/
def opXor (a b : Word) : Word := a ^^^ b

/-- Bitwise xnor, the complement of xor (R136). -/
def opXnor (a b : Word) : Word := ~~~(a ^^^ b)

/-- Bitwise nor, the complement of or (R138). -/
def opNor (a b : Word) : Word := ~~~(a ||| b)

/-- `bool(R = S)` (R140). -/
def opCeq (a b : Word) : Word := boolWord (condEq a b)

/-- `bool(signed(R) < signed(S))` (R142). -/
def opClt (a b : Word) : Word := boolWord (condLt a b)

/-- `bool(signed(R) <= signed(S))` (R144). -/
def opClte (a b : Word) : Word := boolWord (condLe a b)

/-! ## The instructions -/

/-- `add R,S,T` (R123). -/
def execAdd (r q t : RegAddr) (s : State) : Result := aluReg opAdd r q t s

/-- `addi R,S,T` (R124). -/
def execAddi (r : RegAddr) (imm : BitVec 32) (t : RegAddr) (s : State) : Result := aluImm opAdd r imm t s

/-- `sub R,S,T` (R125). -/
def execSub (r q t : RegAddr) (s : State) : Result := aluReg opSub r q t s

/-- `subi R,S,T` (R126). -/
def execSubi (r : RegAddr) (imm : BitVec 32) (t : RegAddr) (s : State) : Result := aluImm opSub r imm t s

/-- `mul R,S,T` (R127). -/
def execMul (r q t : RegAddr) (s : State) : Result := aluReg opMul r q t s

/-- `muli R,S,T` (R128). -/
def execMuli (r : RegAddr) (imm : BitVec 32) (t : RegAddr) (s : State) : Result := aluImm opMul r imm t s

/-- `and R,S,T` (R129). -/
def execAnd (r q t : RegAddr) (s : State) : Result := aluReg opAnd r q t s

/-- `andi R,S,T` (R130). -/
def execAndi (r : RegAddr) (imm : BitVec 32) (t : RegAddr) (s : State) : Result := aluImm opAnd r imm t s

/-- `or R,S,T` (R131). -/
def execOr (r q t : RegAddr) (s : State) : Result := aluReg opOr r q t s

/-- `ori R,S,T` (R132). -/
def execOri (r : RegAddr) (imm : BitVec 32) (t : RegAddr) (s : State) : Result := aluImm opOr r imm t s

/-- `not R,T` (R133): one source only. -/
def execNot (r t : RegAddr) (s : State) : Result :=
  checkRegs s [r, t] (.next (aluWrite s t (opNot (s.readReg r))))

/-- `xor R,S,T` (R134). -/
def execXor (r q t : RegAddr) (s : State) : Result := aluReg opXor r q t s

/-- `xori R,S,T` (R135). -/
def execXori (r : RegAddr) (imm : BitVec 32) (t : RegAddr) (s : State) : Result := aluImm opXor r imm t s

/-- `xnor R,S,T` (R136). -/
def execXnor (r q t : RegAddr) (s : State) : Result := aluReg opXnor r q t s

/-- `xnori R,S,T` (R137). -/
def execXnori (r : RegAddr) (imm : BitVec 32) (t : RegAddr) (s : State) : Result := aluImm opXnor r imm t s

/-- `nor R,S,T` (R138). -/
def execNor (r q t : RegAddr) (s : State) : Result := aluReg opNor r q t s

/-- `nori R,S,T` (R139). -/
def execNori (r : RegAddr) (imm : BitVec 32) (t : RegAddr) (s : State) : Result := aluImm opNor r imm t s

/-- `ceq R,S,T` (R140). -/
def execCeq (r q t : RegAddr) (s : State) : Result := aluReg opCeq r q t s

/-- `ceqi R,S,T` (R141). -/
def execCeqi (r : RegAddr) (imm : BitVec 32) (t : RegAddr) (s : State) : Result := aluImm opCeq r imm t s

/-- `clt R,S,T` (R142). -/
def execClt (r q t : RegAddr) (s : State) : Result := aluReg opClt r q t s

/-- `clti R,S,T` (R143). -/
def execClti (r : RegAddr) (imm : BitVec 32) (t : RegAddr) (s : State) : Result := aluImm opClt r imm t s

/-- `clte R,S,T` (R144). -/
def execClte (r q t : RegAddr) (s : State) : Result := aluReg opClte r q t s

/-- `cltei R,S,T` (R145). -/
def execCltei (r : RegAddr) (imm : BitVec 32) (t : RegAddr) (s : State) : Result := aluImm opClte r imm t s

/-- `shr R,S,T` (R146). -/
def execShr (r q t : RegAddr) (s : State) : Result := shiftReg (shiftRight s.cfg.shiftOver) r q t s

/-- `shri R,S,T` (R147). -/
def execShri (r : RegAddr) (n : BitVec 8) (t : RegAddr) (s : State) : Result := shiftImm (shiftRight s.cfg.shiftOver) r n t s

/-- `shl R,S,T` (R148). -/
def execShl (r q t : RegAddr) (s : State) : Result := shiftReg (shiftLeft s.cfg.shiftOver) r q t s

/-- `shli R,S,T` (R149). -/
def execShli (r : RegAddr) (n : BitVec 8) (t : RegAddr) (s : State) : Result := shiftImm (shiftLeft s.cfg.shiftOver) r n t s

/-- `rr R,S,T` (R150). -/
def execRr (r q t : RegAddr) (s : State) : Result := shiftReg rotRight r q t s

/-- `rri R,S,T` (R151). -/
def execRri (r : RegAddr) (n : BitVec 8) (t : RegAddr) (s : State) : Result := shiftImm rotRight r n t s

/-- `rl R,S,T` (R152). -/
def execRl (r q t : RegAddr) (s : State) : Result := shiftReg rotLeft r q t s

/-- `rli R,S,T` (R153). -/
def execRli (r : RegAddr) (n : BitVec 8) (t : RegAddr) (s : State) : Result := shiftImm rotLeft r n t s

end Sys2Proof.Machine
end

