-- ==== Sys2Proof/Machine/CallReturn.lean ====
section
/-!
DEFINITION. Call and return (spec/43_call_return.md).  The function stack is an area of the data memory addressed
through the stack pointer register; each entry is one word holding one program address (R180).
-/

namespace Sys2Proof.Machine

/-- `call I` (R181): push the saved program address and jump.  On a fault neither memory, `sp` nor the pc
changes. -/
def execCall (i : BitVec 56) (s : State) : Result :=
  orRaise (s.push s.savedPc) fun t => .next (t.setPc (absTarget i))

/-- `ret` (R182): pop a program address and go there.  The stack word keeps its value. -/
def execRet (s : State) : Result :=
  orRaise s.pop fun x => .next (x.2.setPc (s.returnPc x.1))

end Sys2Proof.Machine
end

