-- ==== Sys2Proof/Machine/IoMemory.lean ====
section
/-!
DEFINITION. IO and memory (spec/42_io_memory.md).  Every instruction forms one 64-bit address or device number and
moves one 64-bit word between that place and a register (R160).  The checks come in the order of R160: the
register addresses, then the address or device, then the memory word.
-/

namespace Sys2Proof.Machine

/-- Load the word at `a` into register `r` and go on. -/
def loadWord (a : Word) (r : RegAddr) (s : State) : Result :=
  orRaise (s.memRead a) fun v => .next (s.writeReg r v).advance

/-- Store register `r` to the word at `a` and go on. -/
def storeWord (a : Word) (r : RegAddr) (s : State) : Result :=
  orRaise (s.memWrite a (s.readReg r)) fun t => .next t.advance

/-- Read device `dev` into the registers `r` (the word) and `q` (the control bit) and go on. -/
def readDevice (dev : Word) (r q : RegAddr) (s : State) : Result :=
  orRaise (s.ioRead dev) fun x => .next (x.2.writePair r q x.1 (Config.lioKeepsWord s.draws)).advance

/-- Send register `r` and a control bit to device `dev` and go on. -/
def writeDevice (dev : Word) (r : RegAddr) (s : State) : Result :=
  orRaise (s.ioWrite dev (s.readReg r) s.sioControl) fun t => .next t.advance

/-- `lw I,R` (R161). -/
def execLw (m : RegAddr) (i : BitVec 32) (r : RegAddr) (s : State) : Result :=
  checkRegs s [m, r] (loadWord (s.baseAddr m i) r s)

/-- `lwi I,R` (R162). -/
def execLwi (i : BitVec 32) (r : RegAddr) (s : State) : Result :=
  checkRegs s [r] (loadWord (s.directAddr i) r s)

/-- `sw I,R` (R163): byte 4 is read, no register is written. -/
def execSw (m : RegAddr) (i : BitVec 32) (r : RegAddr) (s : State) : Result :=
  checkRegs s [m, r] (storeWord (s.baseAddr m i) r s)

/-- `swi I,R` (R164; 90_conflicts.md C1). -/
def execSwi (i : BitVec 32) (r : RegAddr) (s : State) : Result :=
  checkRegs s [r] (storeWord (s.directAddr i) r s)

/-- `lio I,R,S` (R165): both register fields are destinations. -/
def execLio (i : BitVec 32) (r q : RegAddr) (s : State) : Result :=
  checkRegs s [r, q] (readDevice (s.directAddr i) r q s)

/-- `lioi I,R,S` (R166): "exactly the semantics of `lio`" (decision D21). -/
def execLioi (i : BitVec 32) (r q : RegAddr) (s : State) : Result :=
  checkRegs s [r, q] (readDevice (s.directAddr i) r q s)

/-- `sio I,R` (R167; 90_conflicts.md C2).  Under `SIO_ADDR = imm` the base field is not used. -/
def execSio (m : RegAddr) (i : BitVec 32) (r : RegAddr) (s : State) : Result :=
  checkRegs s ((Instr.sio m i r).usedRegs s.cfg) (writeDevice (s.sioDev m i) r s)

/-- `sioi I,R` (R168). -/
def execSioi (i : BitVec 32) (r : RegAddr) (s : State) : Result :=
  checkRegs s [r] (writeDevice (s.directAddr i) r s)

end Sys2Proof.Machine
end

