-- ==== Sys2Proof/Machine/Jump.lean ====
section
/-!
DEFINITION. Jumping and branching (spec/40_jump_branch.md): `jmp` and the twelve conditional branches.  No
instruction of this family writes a register, memory or a port, and no target is checked before the next fetch
(R100).
-/

namespace Sys2Proof.Machine

/-- Branch mechanics (R100): to `pc + distance` if the condition holds, else to the next instruction. -/
def branchTo {n : Nat} (taken : Bool) (dist : BitVec n) (s : State) : State :=
  s.setPc (if taken then s.branchTarget dist else s.nextPc)

/-- A register branch (R102 to R107): both comparands are registers. -/
def branchReg (cond : Word → Word → Bool) (r q : RegAddr) (dist : BitVec 32) (s : State) : Result :=
  checkRegs s [r, q] (.next (branchTo (cond (s.readReg r) (s.readReg q)) dist s))

/-- An immediate branch (R108): the second comparand is the 32-bit immediate. -/
def branchImm (cond : Word → Word → Bool) (r : RegAddr) (imm : BitVec 32) (dist : BitVec 16) (s : State) : Result :=
  checkRegs s [r] (.next (branchTo (cond (s.readReg r) (s.immOperand imm)) dist s))

/-- `jmp J` (R101): `pc <- zext_64(J)`. -/
def execJmp (j : BitVec 56) (s : State) : Result := .next (s.setPc (absTarget j))

/-- `beq R,S,T` (R102): taken if `a = b`. -/
def execBeq (r q : RegAddr) (t : BitVec 32) (s : State) : Result := branchReg condEq r q t s

/-- `bneq R,S,T` (R103): taken if `a != b`. -/
def execBneq (r q : RegAddr) (t : BitVec 32) (s : State) : Result := branchReg condNe r q t s

/-- `bl R,S,T` (R104): taken if `signed(a) < signed(b)`. -/
def execBl (r q : RegAddr) (t : BitVec 32) (s : State) : Result := branchReg condLt r q t s

/-- `bleq R,S,T` (R105): taken if `signed(a) <= signed(b)`. -/
def execBleq (r q : RegAddr) (t : BitVec 32) (s : State) : Result := branchReg condLe r q t s

/-- `bg R,S,T` (R106): taken if `signed(a) > signed(b)`. -/
def execBg (r q : RegAddr) (t : BitVec 32) (s : State) : Result := branchReg condGt r q t s

/-- `bgeq R,S,T` (R107): taken if `signed(a) >= signed(b)`. -/
def execBgeq (r q : RegAddr) (t : BitVec 32) (s : State) : Result := branchReg condGe r q t s

/-- `beqi R,S,T` (R109): taken if `a = b`, `b` the immediate. -/
def execBeqi (r : RegAddr) (imm : BitVec 32) (t : BitVec 16) (s : State) : Result := branchImm condEq r imm t s

/-- `bneqi R,S,T` (R110): taken if `a != b`, `b` the immediate. -/
def execBneqi (r : RegAddr) (imm : BitVec 32) (t : BitVec 16) (s : State) : Result := branchImm condNe r imm t s

/-- `bli R,S,T` (R111): taken if `signed(a) < signed(b)`, `b` the immediate. -/
def execBli (r : RegAddr) (imm : BitVec 32) (t : BitVec 16) (s : State) : Result := branchImm condLt r imm t s

/-- `bleqi R,S,T` (R112): taken if `signed(a) <= signed(b)`, `b` the immediate. -/
def execBleqi (r : RegAddr) (imm : BitVec 32) (t : BitVec 16) (s : State) : Result := branchImm condLe r imm t s

/-- `bgi R,S,T` (R113): taken if `signed(a) > signed(b)`, `b` the immediate. -/
def execBgi (r : RegAddr) (imm : BitVec 32) (t : BitVec 16) (s : State) : Result := branchImm condGt r imm t s

/-- `bgeqi R,S,T` (R114): taken if `signed(a) >= signed(b)`, `b` the immediate. -/
def execBgeqi (r : RegAddr) (imm : BitVec 32) (t : BitVec 16) (s : State) : Result := branchImm condGe r imm t s

end Sys2Proof.Machine
end

