-- ==== Sys2Proof/Machine/Dispatch.lean ====
section
/-!
DEFINITION. One arm per instruction: the meaning that spec/30_encoding.md R75 names for it.
-/

namespace Sys2Proof.Machine

/-- What instruction `i` does in state `s`. -/
def exec (i : Instr) (s : State) : Host.Outcome State Fault Refusal :=
  match i with
  | .jmp j => Sys2Proof.Machine.execJmp j s
  | .beq r q t => Sys2Proof.Machine.execBeq r q t s
  | .bneq r q t => Sys2Proof.Machine.execBneq r q t s
  | .bl r q t => Sys2Proof.Machine.execBl r q t s
  | .bleq r q t => Sys2Proof.Machine.execBleq r q t s
  | .bg r q t => Sys2Proof.Machine.execBg r q t s
  | .bgeq r q t => Sys2Proof.Machine.execBgeq r q t s
  | .beqi r imm t => Sys2Proof.Machine.execBeqi r imm t s
  | .bneqi r imm t => Sys2Proof.Machine.execBneqi r imm t s
  | .bli r imm t => Sys2Proof.Machine.execBli r imm t s
  | .bleqi r imm t => Sys2Proof.Machine.execBleqi r imm t s
  | .bgi r imm t => Sys2Proof.Machine.execBgi r imm t s
  | .bgeqi r imm t => Sys2Proof.Machine.execBgeqi r imm t s
  | .lw m a r => Sys2Proof.Machine.execLw m a r s
  | .sw m a r => Sys2Proof.Machine.execSw m a r s
  | .call j => Sys2Proof.Machine.execCall j s
  | .ret => Sys2Proof.Machine.execRet s
  | .lio a r q => Sys2Proof.Machine.execLio a r q s
  | .sio m a r => Sys2Proof.Machine.execSio m a r s
  | .lwi a r => Sys2Proof.Machine.execLwi a r s
  | .swi a r => Sys2Proof.Machine.execSwi a r s
  | .lioi a r q => Sys2Proof.Machine.execLioi a r q s
  | .sioi a r => Sys2Proof.Machine.execSioi a r s
  | .add r q t => Sys2Proof.Machine.execAdd r q t s
  | .sub r q t => Sys2Proof.Machine.execSub r q t s
  | .mul r q t => Sys2Proof.Machine.execMul r q t s
  | .and r q t => Sys2Proof.Machine.execAnd r q t s
  | .or r q t => Sys2Proof.Machine.execOr r q t s
  | .not r t => Sys2Proof.Machine.execNot r t s
  | .xor r q t => Sys2Proof.Machine.execXor r q t s
  | .xnor r q t => Sys2Proof.Machine.execXnor r q t s
  | .nor r q t => Sys2Proof.Machine.execNor r q t s
  | .ceq r q t => Sys2Proof.Machine.execCeq r q t s
  | .clt r q t => Sys2Proof.Machine.execClt r q t s
  | .clte r q t => Sys2Proof.Machine.execClte r q t s
  | .shr r q t => Sys2Proof.Machine.execShr r q t s
  | .shl r q t => Sys2Proof.Machine.execShl r q t s
  | .rr r q t => Sys2Proof.Machine.execRr r q t s
  | .rl r q t => Sys2Proof.Machine.execRl r q t s
  | .addi r imm t => Sys2Proof.Machine.execAddi r imm t s
  | .subi r imm t => Sys2Proof.Machine.execSubi r imm t s
  | .muli r imm t => Sys2Proof.Machine.execMuli r imm t s
  | .andi r imm t => Sys2Proof.Machine.execAndi r imm t s
  | .ori r imm t => Sys2Proof.Machine.execOri r imm t s
  | .xori r imm t => Sys2Proof.Machine.execXori r imm t s
  | .xnori r imm t => Sys2Proof.Machine.execXnori r imm t s
  | .nori r imm t => Sys2Proof.Machine.execNori r imm t s
  | .ceqi r imm t => Sys2Proof.Machine.execCeqi r imm t s
  | .clti r imm t => Sys2Proof.Machine.execClti r imm t s
  | .cltei r imm t => Sys2Proof.Machine.execCltei r imm t s
  | .shri r n t => Sys2Proof.Machine.execShri r n t s
  | .shli r n t => Sys2Proof.Machine.execShli r n t s
  | .rri r n t => Sys2Proof.Machine.execRri r n t s
  | .rli r n t => Sys2Proof.Machine.execRli r n t s

end Sys2Proof.Machine
end

