-- ==== Sys2Proof/Machine/Step.lean ====
section
/-!
DEFINITION. One step of the machine (spec/00_scope.md R15, spec/70_reset_and_hazards.md R234).
-/

namespace Sys2Proof.Machine

/-- One step.  A running machine whose pc is `PROG_LEN` becomes `Halted`; otherwise it fetches, decodes and
performs one instruction, or faults.  A terminal state is never left (R35): a halted machine stays as it is, a
faulted one answers its fault again (log entries 8 and 9).  A configuration the spec says to refuse is refused
(93_implementation_defined.md U24; log entry 10). -/
def step (s : State) : Host.Outcome State Fault Refusal :=
  if s.cfg.wf then
    match s.status with
    | .halted => .next s
    | .faulted f => .fault f
    | .running =>
      if s.atEnd then .next s.halt
      else
        match s.fetchInstr with
        | .error f => raise f
        | .ok i => exec i s
  else .refused .badConfiguration

/-- The state of the machine after one step, the terminal states included (R35, R200): a fault changes the
status and nothing else. -/
def State.settle (s : State) : State :=
  match step s with
  | .next t => t
  | .fault f => s.faultedBy f
  | .refused _ => s

/-- The state whose next step fetches the `nbits`-bit instruction `w`: that word stands in the program store at
the pc, and the machine is running (log entry 12). -/
def State.withFetchWord (s : State) (nbits w : Nat) : State :=
  { s with prog := placeWord s.prog s.pc.toNat (BitVec.ofNat 64 (w % 2 ^ nbits)), status := .running }

end Sys2Proof.Machine
end

