-- ==== Sys2Proof/Machine/Assembly.lean ====
section
/-!
DEFINITION. The assembly spelling (spec/30_encoding.md R81 to R84; 90_conflicts.md C3): a lower-case mnemonic, one space,
the operands separated by commas in the order of R83.  Braced operands are not written: the assembler
fills `{M:mem}` with `REG_MEM` and `{0}` with 0 (R9, R82, decision D24).  The machine never sees this text; what
it executes is the word `assemble` answers.  What R81 leaves open is fixed in log entry 15.
-/

namespace Sys2Proof.Machine

/-- The value of a hexadecimal digit. -/
def hexDigit (ch : Char) : Option Nat :=
  if '0' ≤ ch ∧ ch ≤ '9' then some (ch.toNat - '0'.toNat)
  else if 'A' ≤ ch ∧ ch ≤ 'F' then some (ch.toNat - 'A'.toNat + 10)
  else if 'a' ≤ ch ∧ ch ≤ 'f' then some (ch.toNat - 'a'.toNat + 10)
  else none

/-- The value of hexadecimal digits read from the left, starting from `acc`. -/
def hexDigits (acc : Nat) (l : List Char) : Option Nat :=
  match l with
  | [] => some acc
  | ch :: rest =>
    match hexDigit ch with
    | some d => hexDigits (16 * acc + d) rest
    | none => none

/-- An immediate or a register address: "hexadecimal with a `0x` prefix" (R81). -/
def asmNumber (l : List Char) : Option Nat :=
  match l with
  | '0' :: 'x' :: d :: rest => hexDigits 0 (d :: rest)
  | _ => none

/-- The text between commas. -/
def splitCommas (l : List Char) : List (List Char) :=
  match l with
  | [] => [[]]
  | ch :: rest =>
    match splitCommas rest with
    | [] => [[ch]]
    | f :: fs => if ch = ',' then [] :: f :: fs else (ch :: f) :: fs

/-- A register operand: one of the three names of R82, or an address.  R9 gives the addresses as "0 - last register"
and does not say what an assembler does with one beyond it; DESIGN CHOICE (log entry 15): every address that fits the
byte is accepted, whatever `NREG` is, and it is the machine that raises `RegisterOutOfRange` (R21). -/
def asmReg (c : Config) (l : List Char) : Option RegAddr :=
  if l = "nptr".toList then some 0
  else if l = "mem".toList then some c.regMem
  else if l = "sp".toList then some c.regSp
  else
    match asmNumber l with
    | some n => if n < 256 then some (BitVec.ofNat 8 n) else none
    | none => none

/-- An immediate operand of `n` bits. -/
def asmImm (n : Nat) (l : List Char) : Option (BitVec n) :=
  match asmNumber l with
  | some v => if v < 2 ^ n then some (BitVec.ofNat n v) else none
  | none => none

/-- A shift or rotate amount: "any bigger value will be cut down to the least significant byte" (R69, R122). -/
def asmAmount (l : List Char) : Option (BitVec 8) :=
  (asmImm 32 l).map fun v => v.setWidth 8

/-- How the operands of one mnemonic are read. -/
abbrev AsmForm := Config → List (List Char) → Option Instr

/-- `jmp J`, `call I`. -/
def asmJ (mk : BitVec 56 → Instr) : AsmForm := fun _ ops =>
  match ops with
  | [j] => do pure (mk (← asmImm 56 j))
  | _ => none

/-- `beq R,S,T`: two registers and a distance. -/
def asmB (mk : RegAddr → RegAddr → BitVec 32 → Instr) : AsmForm := fun c ops =>
  match ops with
  | [r, s, t] => do pure (mk (← asmReg c r) (← asmReg c s) (← asmImm 32 t))
  | _ => none

/-- `beqi R,S,T`: a register, a comparand and a 16-bit distance. -/
def asmBI (mk : RegAddr → BitVec 32 → BitVec 16 → Instr) : AsmForm := fun c ops =>
  match ops with
  | [r, s, t] => do pure (mk (← asmReg c r) (← asmImm 32 s) (← asmImm 16 t))
  | _ => none

/-- `add R,S,T`: the destination last. -/
def asmR3 (mk : RegAddr → RegAddr → RegAddr → Instr) : AsmForm := fun c ops =>
  match ops with
  | [r, s, t] => do pure (mk (← asmReg c r) (← asmReg c s) (← asmReg c t))
  | _ => none

/-- `not R,T`. -/
def asmR2 (mk : RegAddr → RegAddr → Instr) : AsmForm := fun c ops =>
  match ops with
  | [r, t] => do pure (mk (← asmReg c r) (← asmReg c t))
  | _ => none

/-- `addi R,S,T`. -/
def asmI (mk : RegAddr → BitVec 32 → RegAddr → Instr) : AsmForm := fun c ops =>
  match ops with
  | [r, s, t] => do pure (mk (← asmReg c r) (← asmImm 32 s) (← asmReg c t))
  | _ => none

/-- `shri R,S,T`. -/
def asmSH (mk : RegAddr → BitVec 8 → RegAddr → Instr) : AsmForm := fun c ops =>
  match ops with
  | [r, s, t] => do pure (mk (← asmReg c r) (← asmAmount s) (← asmReg c t))
  | _ => none

/-- `lw I,R`: the base is `REG_MEM`. -/
def asmM (mk : RegAddr → BitVec 32 → RegAddr → Instr) : AsmForm := fun c ops =>
  match ops with
  | [i, r] => do pure (mk c.regMem (← asmImm 32 i) (← asmReg c r))
  | _ => none

/-- `lwi I,R`. -/
def asmMI (mk : BitVec 32 → RegAddr → Instr) : AsmForm := fun c ops =>
  match ops with
  | [i, r] => do pure (mk (← asmImm 32 i) (← asmReg c r))
  | _ => none

/-- `lio I,R,S`. -/
def asmIO (mk : BitVec 32 → RegAddr → RegAddr → Instr) : AsmForm := fun c ops =>
  match ops with
  | [i, r, s] => do pure (mk (← asmImm 32 i) (← asmReg c r) (← asmReg c s))
  | _ => none

/-- `ret`: no operand. -/
def asmN (mk : Instr) : AsmForm := fun _ ops =>
  match ops with
  | [] => some mk
  | _ => none

/-- Jump and branch mnemonics. -/
def asmJumpRows : List (String × AsmForm) := [
  ("jmp", asmJ .jmp),
  ("beq", asmB .beq),
  ("bneq", asmB .bneq),
  ("bl", asmB .bl),
  ("bleq", asmB .bleq),
  ("bg", asmB .bg),
  ("bgeq", asmB .bgeq),
  ("beqi", asmBI .beqi),
  ("bneqi", asmBI .bneqi),
  ("bli", asmBI .bli),
  ("bleqi", asmBI .bleqi),
  ("bgi", asmBI .bgi),
  ("bgeqi", asmBI .bgeqi)]

/-- Memory, IO, call and return mnemonics. -/
def asmMemRows : List (String × AsmForm) := [
  ("lw", asmM .lw),
  ("sw", asmM .sw),
  ("call", asmJ .call),
  ("ret", asmN .ret),
  ("lio", asmIO .lio),
  ("sio", asmM .sio),
  ("lwi", asmMI .lwi),
  ("swi", asmMI .swi),
  ("lioi", asmIO .lioi),
  ("sioi", asmMI .sioi)]

/-- Register-form ALU mnemonics. -/
def asmAluRows : List (String × AsmForm) := [
  ("add", asmR3 .add),
  ("sub", asmR3 .sub),
  ("mul", asmR3 .mul),
  ("and", asmR3 .and),
  ("or", asmR3 .or),
  ("not", asmR2 .not),
  ("xor", asmR3 .xor),
  ("xnor", asmR3 .xnor),
  ("nor", asmR3 .nor),
  ("ceq", asmR3 .ceq),
  ("clt", asmR3 .clt),
  ("clte", asmR3 .clte),
  ("shr", asmR3 .shr),
  ("shl", asmR3 .shl),
  ("rr", asmR3 .rr),
  ("rl", asmR3 .rl)]

/-- Immediate-form ALU mnemonics. -/
def asmAluImmRows : List (String × AsmForm) := [
  ("addi", asmI .addi),
  ("subi", asmI .subi),
  ("muli", asmI .muli),
  ("andi", asmI .andi),
  ("ori", asmI .ori),
  ("xori", asmI .xori),
  ("xnori", asmI .xnori),
  ("nori", asmI .nori),
  ("ceqi", asmI .ceqi),
  ("clti", asmI .clti),
  ("cltei", asmI .cltei),
  ("shri", asmSH .shri),
  ("shli", asmSH .shli),
  ("rri", asmSH .rri),
  ("rli", asmSH .rli)]

/-- Every mnemonic with the way its operands are read (R75, R83). -/
def asmRows : List (String × AsmForm) :=
  asmJumpRows ++ asmMemRows ++ asmAluRows ++ asmAluImmRows

/-- The operands of a line: the text after the mnemonic and one space, cut at the commas. -/
def asmOperands (l : List Char) : List (List Char) :=
  match l with
  | [] => []
  | _ :: rest => splitCommas rest

/-- The instruction a line of assembly spells. -/
def parseLine (c : Config) (line : String) : Option Instr :=
  let mn := line.toList.takeWhile fun ch => ch != ' '
  let rest := line.toList.dropWhile fun ch => ch != ' '
  match asmRows.find? fun row => row.1.toList == mn with
  | some row => row.2 c (asmOperands rest)
  | none => none

/-- The word a line of assembly stands for. -/
def assemble (c : Config) (line : String) : Option Word :=
  (parseLine c line).map encode

end Sys2Proof.Machine
end

