-- ==== Sys2Proof/Safety.lean ====
section
/-!
DEFINITION. The terms claims are stated in: what a machine's state always satisfies (`State.Inv`), what part of a
state an instruction leaves alone, and what kinds of instruction there are (spec/10_state.md R25, spec/20_memory.md R40).

A run of this machine goes wrong only by one of the seven faults of spec/60_exceptions.md R201; a state is safe to
step from if no fault stands in the way.
-/

namespace Sys2Proof.Machine

/-- The next step raises no fault and is not refused. -/
def State.Safe (s : State) : Prop := ∃ t, step s = .next t

/-! ## What stays the same -/

/-- One byte of the data memory, by its cell: word address `a` is the cells `8 * a` to `8 * a + 7`. -/
def State.byteAt (s : State) (k : Nat) : Option Byte := s.mem.readByte s.cfg.memFill k

/-- The word at word address `a`; none if it holds no value. -/
def State.wordAt (s : State) (a : Word) : Option Word := s.mem.readWord s.cfg.memFill a.toNat

/-- Every byte of memory reads as before. -/
def SameMem (s t : State) : Prop := ∀ k, t.byteAt k = s.byteAt k

/-- Every byte of memory outside the eight bytes of word address `a` reads as before. -/
def SameMemOutside (a : Word) (s t : State) : Prop :=
  ∀ k, (k < 8 * a.toNat ∨ 8 * a.toNat + 8 ≤ k) → t.byteAt k = s.byteAt k

/-- Every register not in `ds` reads as before. -/
def SameRegsBut (ds : List RegAddr) (s t : State) : Prop :=
  ∀ q, q ∉ ds → t.readReg q = s.readReg q

/-- The IO trace, and the model's own place in the host's answers and the free values, are as before. -/
def SameIo (s t : State) : Prop :=
  t.iotrace = s.iotrace ∧ t.ioIn = s.ioIn ∧ t.draws = s.draws

/-- The parameters, the program store and the status are as before. -/
def SameRun (s t : State) : Prop :=
  t.cfg = s.cfg ∧ t.prog = s.prog ∧ t.status = s.status

/-- Register `d` reads `v`, or still 0 if it is `nptr`, which discards writes (R22). -/
def Holds (s t : State) (d : RegAddr) (v : Word) : Prop :=
  t.readReg d = if s.isNptr d then 0 else v

/-- The effect of an instruction that writes `v` to register `d`, goes to the next instruction, and changes
nothing else. -/
structure WritesReg (s t : State) (d : RegAddr) (v : Word) : Prop where
  value : Holds s t d v
  regs  : SameRegsBut [d] s t
  pc    : t.pc = s.pc + 1
  mem   : SameMem s t
  io    : SameIo s t
  run   : SameRun s t

/-- The effect of an instruction that sets the pc to `target` and changes nothing else. -/
structure JumpsTo (s t : State) (target : Word) : Prop where
  pc   : t.pc = target
  regs : SameRegsBut [] s t
  mem  : SameMem s t
  io   : SameIo s t
  run  : SameRun s t

/-- The effect of an instruction that stores `v` at word address `a`, goes to the next instruction, and
changes nothing else. -/
structure StoresWord (s t : State) (a v : Word) : Prop where
  stored : t.wordAt a = some v
  rest   : SameMemOutside a s t
  regs   : SameRegsBut [] s t
  pc     : t.pc = s.pc + 1
  io     : SameIo s t
  run    : SameRun s t

/-! ## Kinds of instruction -/

/-- The registers an instruction may write (R25): byte 4 of every ALU instruction and load, bytes 3 and 4 of
`lio` and `lioi`, the stack pointer for `call` and `ret`. -/
def destRegs (c : Config) (i : Instr) : List RegAddr :=
  match i with
  | .jmp _ | .beq _ _ _ | .bneq _ _ _ | .bl _ _ _ | .bleq _ _ _ | .bg _ _ _ | .bgeq _ _ _ => []
  | .beqi _ _ _ | .bneqi _ _ _ | .bli _ _ _ | .bleqi _ _ _ | .bgi _ _ _ | .bgeqi _ _ _ => []
  | .sw _ _ _ | .swi _ _ | .sio _ _ _ | .sioi _ _ => []
  | .call _ | .ret => [c.regSp]
  | .lw _ _ r | .lwi _ r => [r]
  | .lio _ r q | .lioi _ r q => [r, q]
  | .add _ _ t | .sub _ _ t | .mul _ _ t | .and _ _ t | .or _ _ t | .not _ t | .xor _ _ t | .xnor _ _ t => [t]
  | .nor _ _ t | .ceq _ _ t | .clt _ _ t | .clte _ _ t | .shr _ _ t | .shl _ _ t | .rr _ _ t | .rl _ _ t => [t]
  | .addi _ _ t | .subi _ _ t | .muli _ _ t | .andi _ _ t | .ori _ _ t | .xori _ _ t | .xnori _ _ t => [t]
  | .nori _ _ t | .ceqi _ _ t | .clti _ _ t | .cltei _ _ t | .shri _ _ t | .shli _ _ t | .rri _ _ t | .rli _ _ t => [t]

/-- The word address an instruction stores to, if it stores (R40): `sw`, `swi` and `call`. -/
def storeAddr (i : Instr) (s : State) : Option Word :=
  match i with
  | .sw m a _ => some (s.baseAddr m a)
  | .swi a _ => some (s.directAddr a)
  | .call _ => some s.pushAddr
  | _ => none

/-- The instructions that transfer control: `jmp`, the twelve branches, `call` and `ret` (R27). -/
def transfersControl (i : Instr) : Bool :=
  match i.format with
  | .J | .B | .BI | .N => true
  | .R3 | .R2 | .I | .SH | .M | .MI | .IO => false

/-- The instructions that read a word of data memory: `lw`, `lwi`, `ret` (R40). -/
def readsMem (i : Instr) : Bool :=
  match i with
  | .lw _ _ _ | .lwi _ _ | .ret => true
  | _ => false

/-- The instructions that write a word of data memory: `sw`, `swi`, `call` (R40). -/
def writesMem (i : Instr) : Bool :=
  match i with
  | .sw _ _ _ | .swi _ _ | .call _ => true
  | _ => false

/-- The device number an IO instruction names (R160): `lio`, `lioi`, `sio`, `sioi`. -/
def ioDev (i : Instr) (s : State) : Option Word :=
  match i with
  | .lio a _ _ | .lioi a _ _ | .sioi a _ => some (s.directAddr a)
  | .sio m a _ => some (s.sioDev m a)
  | _ => none

/-- The device number of a trace entry. -/
def IoEvent.dev (e : IoEvent) : Word :=
  match e with
  | .read d _ _ => d
  | .write d _ _ => d

/-! ## The invariant -/

/-- What every state of a run satisfies, and every step keeps. -/
structure State.Inv (s : State) : Prop where
  /-- the parameters are ones the model accepts (R21, R24, U24) -/
  config : s.cfg.wf = true
  /-- the memory is in canonical form -/
  canonical : Memory.wf s.cfg.memFill s.mem
  /-- no cell is listed outside data memory: word addresses are 0 .. MEM_WORDS-1 (R30, R44) -/
  inside : ∀ x ∈ s.mem, x.1 < 8 * s.cfg.memWords
  /-- only whole words are ever written: the cells of a word hold values all together or not at all (R30, R40) -/
  wholeWords : ∀ a, (∀ k < 8, s.byteAt (8 * a + k) ≠ none) ∨ (∀ k < 8, s.byteAt (8 * a + k) = none)
  /-- nothing is ever kept in the register hard-wired to zero (R22) -/
  nptr : s.cfg.nptrZero = true → s.regs[0] = 0
  /-- every recorded IO access named a device that answers (R31) -/
  devices : ∀ e ∈ s.iotrace, s.cfg.devices.answers e.dev = true

end Sys2Proof.Machine
end

