-- ==== Sys2Proof/Certificates/Slice0/Obligations.lean ====
section
/-!
DEFINITION. The statements for the provers.  Every one holds for every value of the parameters of
spec/00_scope.md R5 (`State.cfg`), and for every value of the model's own fields `ioIn` and `draws`.
-/

open Sys2Proof Sys2Proof.Machine

/-! ## The shapes the statements share -/

namespace Sys2Proof.Claims

/-- The 202 undefined values of the opcode byte, as R77 lists them. -/
def undefinedOpcode (op : Byte) : Prop :=
  op = 0x00 ∨ (0x08 ≤ op ∧ op ≤ 0x11) ∨ (0x18 ≤ op ∧ op ≤ 0x3F) ∨ (0x46 ≤ op ∧ op ≤ 0x4F) ∨ op = 0x52 ∨
    op = 0x53 ∨ (0x56 ≤ op ∧ op ≤ 0x7F) ∨ op = 0x95 ∨ 0xA0 ≤ op

/-- The bits of a word its instruction depends on: all of them, but for `w[31:8]` of format SH (R69). -/
def significantBits (i : Instr) : Word :=
  if i.format = .SH then 0xFFFFFFFF000000FF else 0xFFFFFFFFFFFFFFFF

/-- The value a branch distance is added to (`BR_BASE`, R100). -/
def branchBase (s : State) : Word :=
  if s.cfg.brBase = .pc then s.pc else s.pc + 1

/-- Format R3: the word `op-RRSSTT-00000000` is this instruction, and for valid registers it completes, writes a
value `v` that stands in the relation `f` to the two source registers, and changes nothing else but the pc. -/
def RegForm (op : Byte) (mk : RegAddr → RegAddr → RegAddr → Instr) (f : Config → Word → Word → Word → Prop) : Prop :=
  (∀ (c : Config) (r q d : RegAddr), decode c (op ++ r ++ q ++ d ++ 0#32) = .ok (mk r q d)) ∧
  ∀ (s : State) (r q d : RegAddr),
    s.cfg.validReg r = true → s.cfg.validReg q = true → s.cfg.validReg d = true →
    ∃ t v, exec (mk r q d) s = .next t ∧ f s.cfg (s.readReg r) (s.readReg q) v ∧ WritesReg s t d v

/-- Format I: the same with a 32-bit immediate, widened by `EXT_IMM`, in place of the second register. -/
def ImmForm (op : Byte) (mk : RegAddr → BitVec 32 → RegAddr → Instr) (f : Word → Word → Word → Prop) : Prop :=
  (∀ (c : Config) (r d : RegAddr) (imm : BitVec 32), decode c (op ++ r ++ 0#8 ++ d ++ imm) = .ok (mk r imm d)) ∧
  ∀ (s : State) (r d : RegAddr) (imm : BitVec 32), s.cfg.validReg r = true → s.cfg.validReg d = true →
    ∃ t v, exec (mk r imm d) s = .next t ∧ f (s.readReg r) (ext s.cfg.extImm imm) v ∧ WritesReg s t d v

/-- Format SH: the same with an amount of 8 bits; the 24 bits above it do not matter. -/
def ShiftForm (op : Byte) (mk : RegAddr → BitVec 8 → RegAddr → Instr) (f : Config → Word → Nat → Word → Prop) : Prop :=
  (∀ (c : Config) (r d : RegAddr) (high : BitVec 24) (n : BitVec 8),
    decode c (op ++ r ++ 0#8 ++ d ++ high ++ n) = .ok (mk r n d)) ∧
  ∀ (s : State) (r d : RegAddr) (n : BitVec 8), s.cfg.validReg r = true → s.cfg.validReg d = true →
    ∃ t v, exec (mk r n d) s = .next t ∧ f s.cfg (s.readReg r) n.toNat v ∧ WritesReg s t d v

/-- Format B: the word `op-RRSS00-TTTTTTTT` is this branch; for valid registers it completes, goes to
`base + ext(EXT_BR, T)` if the condition holds of the two registers and to the next instruction otherwise, and changes
nothing but the pc. -/
def RegBranch (op : Byte) (mk : RegAddr → RegAddr → BitVec 32 → Instr) (taken : Word → Word → Prop) : Prop :=
  (∀ (c : Config) (r q : RegAddr) (d : BitVec 32), decode c (op ++ r ++ q ++ 0#8 ++ d) = .ok (mk r q d)) ∧
  ∀ (s : State) (r q : RegAddr) (d : BitVec 32), s.cfg.validReg r = true → s.cfg.validReg q = true →
    ∃ t, exec (mk r q d) s = .next t ∧
      (taken (s.readReg r) (s.readReg q) → JumpsTo s t (branchBase s + ext s.cfg.extBr d)) ∧
      (¬ taken (s.readReg r) (s.readReg q) → JumpsTo s t (s.pc + 1))

/-- Format BI: the same with a 16-bit distance, and a 32-bit comparand widened by `EXT_IMM`. -/
def ImmBranch (op : Byte) (mk : RegAddr → BitVec 32 → BitVec 16 → Instr) (taken : Word → Word → Prop) : Prop :=
  (∀ (c : Config) (r : RegAddr) (d : BitVec 16) (imm : BitVec 32), decode c (op ++ r ++ d ++ imm) = .ok (mk r imm d)) ∧
  ∀ (s : State) (r : RegAddr) (d : BitVec 16) (imm : BitVec 32), s.cfg.validReg r = true →
    ∃ t, exec (mk r imm d) s = .next t ∧
      (taken (s.readReg r) (ext s.cfg.extImm imm) → JumpsTo s t (branchBase s + ext s.cfg.extBr d)) ∧
      (¬ taken (s.readReg r) (ext s.cfg.extImm imm) → JumpsTo s t (s.pc + 1))

/-- `shr` by `n` places of 0..255 (R122, R146). -/
def rightShifted (c : Config) (a : Word) (n : Nat) (v : Word) : Prop :=
  v.toNat = if n < 64 then a.toNat / 2 ^ n else if c.shiftOver = .zero then 0 else a.toNat / 2 ^ (n % 64)

/-- `shl` by `n` places of 0..255 (R122, R148). -/
def leftShifted (c : Config) (a : Word) (n : Nat) (v : Word) : Prop :=
  v.toNat = if n < 64 then a.toNat * 2 ^ n % 2 ^ 64
    else if c.shiftOver = .zero then 0 else a.toNat * 2 ^ (n % 64) % 2 ^ 64

/-- `rr` by `n` places: bit `k` of the result is bit `k + n` of the operand, counted round (R122, R150). -/
def rightRotated (a : Word) (n : Nat) (v : Word) : Prop :=
  ∀ k < 64, v.getLsbD k = a.getLsbD ((k + n) % 64)

/-- `rl` by `n` places: bit `k` of the operand becomes bit `k + n` of the result, counted round (R122, R152). -/
def leftRotated (a : Word) (n : Nat) (v : Word) : Prop :=
  ∀ k < 64, v.getLsbD ((k + n) % 64) = a.getLsbD k

/-- A load of the word at `a` into `d`: it completes where the address is in range and the word holds a value. -/
def LoadsFrom (i : Instr) (s : State) (a : Word) (d : RegAddr) : Prop :=
  ∀ v, a.toNat < s.cfg.memWords → s.wordAt a = some v → ∃ t, exec i s = .next t ∧ WritesReg s t d v

/-- A store of `v` to the word at `a`: it completes where the address is in range. -/
def StoresTo (i : Instr) (s : State) (a v : Word) : Prop :=
  a.toNat < s.cfg.memWords → ∃ t, exec i s = .next t ∧ StoresWord s t a v

/-- An IO read of `dev` into `r` (the word) and `q` (the control bit): it completes where the device answers,
is recorded once, takes the host's next answer where there is one, and changes nothing else. -/
def ReadsDevice (i : Instr) (s : State) (dev : Word) (r q : RegAddr) : Prop :=
  s.cfg.devices.answers dev = true →
    ∃ t a, exec i s = .next t ∧ t.iotrace = s.iotrace ++ [.read dev a.word a.ctrl] ∧
      (∀ x rest, s.ioIn = x :: rest → a = x ∧ t.ioIn = rest) ∧
      (r ≠ q → Holds s t r a.word ∧ Holds s t q (a.ctrl.setWidth 64)) ∧
      (r = q → Holds s t r a.word ∨ Holds s t r (a.ctrl.setWidth 64)) ∧
      SameRegsBut [r, q] s t ∧ t.pc = s.pc + 1 ∧ SameMem s t ∧ SameRun s t

/-- An IO write of `v` to `dev`: it completes where the device answers, is recorded once with some control bit
(the fixed one under `SIO_CTRL = fixed`), and changes nothing else. -/
def WritesDevice (i : Instr) (s : State) (dev v : Word) : Prop :=
  s.cfg.devices.answers dev = true →
    ∃ t c, exec i s = .next t ∧ t.iotrace = s.iotrace ++ [.write dev v c] ∧
      (∀ b, s.cfg.sioCtrl = .fixed b → c = b) ∧ t.ioIn = s.ioIn ∧
      SameRegsBut [] s t ∧ t.pc = s.pc + 1 ∧ SameMem s t ∧ SameRun s t

end Sys2Proof.Claims

open Sys2Proof.Claims

/-! ## Encoding -/

/-- Decoding the word of an instruction gives the instruction back, under every parameter setting (R60 to R73). -/
def Obligations.DecodingAnEncodedInstructionGivesItBack : Prop :=
  ∀ (c : Config) (i : Instr), decode c (encode i) = .ok i

/-- Under strict decoding, a word that decodes is the word of its instruction, but for the ignored bits of the shift
and rotate immediates (R62, R69, R78). -/
def Obligations.EncodingADecodedWordGivesItBack : Prop :=
  ∀ (c : Config) (w : Word) (i : Instr), c.strictDecode = true → decode c w = .ok i →
    encode i = w &&& significantBits i

/-- R77: exactly the listed opcode values are undefined, and fetching one raises `IllegalInstruction`; nothing is
written and the pc is not advanced. -/
def Obligations.UndefinedOpcodesAreIllegal : Prop :=
  (∀ (c : Config) (w : Word), decode c w = .error (.illegalInstruction w) ↔ undefinedOpcode (opField w)) ∧
  ∀ (s : State) (w : Word), s.cfg.wf = true → s.status = .running → s.prog[s.pc.toNat]? = some w →
    undefinedOpcode (opField w) →
    step s = .fault (.illegalInstruction w) ∧ s.settle = { s with status := .faulted (.illegalInstruction w) }

/-- R78: with a defined opcode, under strict decoding a non-zero documented-zero field is `ReservedEncoding`, and
without it those fields are ignored; the fault changes nothing, and no assembled word is such a word. -/
def Obligations.ReservedEncodingsAreRefused : Prop :=
  (∀ (c : Config) (w : Word) (row : OpRow), rowOf w = some row →
    (c.strictDecode = true → ¬ row.format.zeroFields w → decode c w = .error (.reservedEncoding w)) ∧
    (c.strictDecode = true → row.format.zeroFields w → decode c w = .ok (row.build w)) ∧
    (c.strictDecode = false → decode c w = .ok (row.build w))) ∧
  (∀ (s : State) (w : Word) (row : OpRow), s.cfg.wf = true → s.status = .running → s.prog[s.pc.toNat]? = some w →
    rowOf w = some row → s.cfg.strictDecode = true → ¬ row.format.zeroFields w →
    step s = .fault (.reservedEncoding w) ∧ s.settle = { s with status := .faulted (.reservedEncoding w) }) ∧
  ∀ (c c' : Config) (line : String) (w : Word), assemble c line = some w → decode c' w ≠ .error (.reservedEncoding w)

/-- A few words written out from the spec's encodings decode to the instructions they stand for. -/
def Obligations.WordsOfTheSpecDecode : Prop :=
  decode Config.default 0x90000001000000A6 = .ok (.addi 0x00 0xA6 0x01) ∧
  decode Config.default 0x0100000000000000 = .ok (.jmp 0) ∧
  decode Config.default 0x07010200FFFFFFFE = .ok (.bgeq 0x01 0x02 0xFFFFFFFE) ∧
  decode Config.default 0x1601FFFE00000000 = .ok (.bgi 0x01 0x00 0xFFFE) ∧
  decode Config.default 0x40FE000200000003 = .ok (.lw 0xFE 0x03 0x02) ∧
  decode Config.default 0x4400010200000001 = .ok (.lio 0x01 0x01 0x02) ∧
  decode Config.default 0x9C01000212345604 = .ok (.shri 0x01 0x04 0x02) ∧
  decode Config.default 0x4300000000000000 = .ok .ret

/-- What the assembler writes is accepted by the decoder under every parameter setting, and is the instruction
the line spells (R78: the assembler never produces a reserved encoding). -/
def Obligations.AssembledWordsDecode : Prop :=
  ∀ (c c' : Config) (line : String) (w : Word), assemble c line = some w →
    ∃ i, parseLine c line = some i ∧ decode c' w = .ok i

/-- The base register of an assembled `lw`, `sw` or `sio` is `REG_MEM` (R9, R82). -/
def Obligations.AssemblerFillsTheBaseRegister : Prop :=
  ∀ (c : Config) (line : String) (m : RegAddr) (a : BitVec 32) (r : RegAddr),
    (parseLine c line = some (.lw m a r) ∨ parseLine c line = some (.sw m a r) ∨
      parseLine c line = some (.sio m a r)) → m = c.regMem

/-! ## The step -/

/-- R15: a running machine whose program holds, at the pc, a word that decodes to an instruction performs that
instruction; the step adds nothing around it. -/
def Obligations.StepRunsTheDecodedInstruction : Prop :=
  ∀ (s : State) (w : Word) (i : Instr), s.cfg.wf = true → s.status = .running →
    s.prog[s.pc.toNat]? = some w → decode s.cfg w = .ok i → step s = exec i s

/-- R234: a step that begins at `PROG_LEN` ends the run normally, one that begins beyond it faults. -/
def Obligations.RunsEndAtTheProgramLength : Prop :=
  ∀ (s : State), s.cfg.wf = true → s.status = .running →
    (s.pc.toNat = s.prog.length → ∃ t, step s = .next t ∧ t.status = .halted ∧ t = { s with status := .halted }) ∧
    (s.prog.length < s.pc.toNat → step s = .fault (.fetchOutOfRange s.pc))

/-- R35, R200: a fault changes the status and nothing else, and a halted or faulted machine stays as it is.
That a terminal state answers steps at all is the model's choice (log entries 8 and 9). -/
def Obligations.TerminalStatesAreNeverLeft : Prop :=
  (∀ (s : State) (f : Fault), step s = .fault f → s.status = .running →
    s.settle.status = .faulted f ∧ s.settle.pc = s.pc ∧ SameRegsBut [] s s.settle ∧ SameMem s s.settle ∧
      SameIo s s.settle ∧ step s.settle = .fault f) ∧
  (∀ (s : State), s.status ≠ .running → s.settle = s)

/-- R21, R24, U24: a step is refused only for a configuration outside the ones the spec accepts, and then always.
The spec says to refuse such a configuration; that the step does it is the model's choice (log entry 10). -/
def Obligations.OnlyBadConfigurationsAreRefused : Prop :=
  ∀ (s : State), (∃ r, step s = .refused r) ↔
    ¬ (1 ≤ s.cfg.nreg ∧ s.cfg.nreg ≤ 256 ∧ s.cfg.regMem ≠ s.cfg.regSp ∧ s.cfg.regMem ≠ 0 ∧ s.cfg.regSp ≠ 0 ∧
      s.cfg.regMem.toNat < s.cfg.nreg ∧ s.cfg.regSp.toNat < s.cfg.nreg)

/-- The reset state as R34 tabulates it: pc 0, no memory word with a value, `nptr` 0, an empty trace, running. -/
def Obligations.ResetLeavesTheTabulatedState : Prop :=
  State.reset.pc = 0 ∧ State.reset.readReg 0 = 0 ∧ (∀ k, State.reset.byteAt k = none) ∧
    (∀ a, State.reset.wordAt a = none) ∧ State.reset.iotrace = [] ∧ State.reset.status = .running

/-! ## Rules over all instructions -/

/-- Every step keeps the invariant: the parameters stay acceptable, the memory stays canonical, inside its bounds
and made of whole words, nothing is kept in `nptr`, and only devices that answer stand in the trace. -/
def Obligations.EveryStepKeepsTheInvariant : Prop :=
  ∀ (s t : State), s.Inv → step s = .next t → t.Inv

/-- The invariant holds right after reset (its clause on register 0 rests on log entry 1). -/
def Obligations.ResetSatisfiesTheInvariant : Prop :=
  State.reset.Inv

/-- R49: no instruction changes the program store, so no fetch sees a store; the parameters of the run are
constant too (R20). -/
def Obligations.StoresAreNeverSeenByFetch : Prop :=
  ∀ (s t : State), step s = .next t →
    t.prog = s.prog ∧ t.cfg = s.cfg ∧ ∀ p, (t.setPc p).fetchInstr = (s.setPc p).fetchInstr

/-- R25: an instruction writes no register but the ones its destination fields name, and `call` and `ret` the
stack pointer. -/
def Obligations.OnlyDestinationRegistersAreWritten : Prop :=
  ∀ (i : Instr) (s t : State), exec i s = .next t → SameRegsBut (destRegs s.cfg i) s t

/-- R40: `sw`, `swi` and `call` write one word of memory, at the address they compute; no other instruction
changes a byte of it. -/
def Obligations.OnlyStoresAndCallsWriteMemory : Prop :=
  ∀ (i : Instr) (s t : State), exec i s = .next t →
    (storeAddr i s = none → SameMem s t) ∧
    ∀ a, storeAddr i s = some a → SameMemOutside a s t ∧ ∃ v, t.wordAt a = some v

/-- R13, R43: `lio` and `lioi` perform one `IORead`, `sio` and `sioi` one `IOWrite`, appended to the trace with the
device number they compute; no other instruction touches a port. -/
def Obligations.EveryIoAccessIsRecordedOnce : Prop :=
  ∀ (i : Instr) (s t : State), exec i s = .next t →
    (ioDev i s = none → SameIo s t) ∧
    ∀ dev, ioDev i s = some dev → ∃ v c,
      t.iotrace = s.iotrace ++ [if i.format = .IO then .read dev v c else .write dev v c]

/-- R27: an instruction that does not transfer control goes to the next address, modulo 2^64. -/
def Obligations.OtherInstructionsGoToTheNextAddress : Prop :=
  ∀ (i : Instr) (s t : State), exec i s = .next t → transfersControl i = false →
    t.pc.toNat = (s.pc.toNat + 1) % 2 ^ 64

/-- R22: `nptr` is register 0 (the source's example); under `NPTR_ZERO` it reads 0 in every state, whatever is stored
in the register file, and no instruction keeps a value in it; without it register 0 keeps what is written to it. -/
def Obligations.NptrReadsZeroAndDiscardsWrites : Prop :=
  (∀ c, assemble c "addi nptr,0xA6,0x01" = some 0x90000001000000A6) ∧
  (∀ (s : State), s.cfg.nptrZero = true →
    s.readReg 0 = 0 ∧ ∀ (i : Instr) (t : State), exec i s = .next t → t.readReg 0 = 0 ∧ t.regs[0] = s.regs[0]) ∧
  ∀ (s : State) (v : Word), s.cfg.nptrZero = false → (s.writeReg 0 v).readReg 0 = v

/-- R21: an instruction that names a register address of `NREG` or more in a field it uses faults.  Which address is
reported is the first in the order byte 2, byte 3, byte 4 (R80 step 4, R203; log entry 17), the fields `sio` uses under
`SIO_ADDR = imm` are log entry 14's, and with 256 registers no instruction can raise the fault (R201). -/
def Obligations.InvalidRegisterAddressesFault : Prop :=
  (∀ (i : Instr) (s : State) (r : RegAddr),
    (i.usedRegs s.cfg).find? (fun x => decide (s.cfg.nreg ≤ x.toNat)) = some r →
    exec i s = .fault (.registerOutOfRange r)) ∧
  ∀ (i : Instr) (s : State) (r : RegAddr), s.cfg.nreg = 256 → exec i s ≠ .fault (.registerOutOfRange r)

/-- R201: each fault is raised by the instructions the table names and under the condition it gives, and an
instruction is never refused.  The register half of `UninitRead` does not arise (log entry 1). -/
def Obligations.FaultsComeFromTheInstructionsNamed : Prop :=
  (∀ (i : Instr) (s : State) (f : Fault), exec i s = .fault f →
    match f with
    | .registerOutOfRange r => r ∈ i.usedRegs s.cfg ∧ s.cfg.nreg ≤ r.toNat
    | .memOutOfRange a => (readsMem i = true ∨ writesMem i = true) ∧ s.cfg.memWords ≤ a.toNat
    | .uninitRead a => readsMem i = true ∧ s.wordAt a = none
    | .noDevice d => ioDev i s = some d ∧ s.cfg.devices.answers d = false
    | .fetchOutOfRange _ | .illegalInstruction _ | .reservedEncoding _ => False) ∧
  ∀ (i : Instr) (s : State) (r : Refusal), exec i s ≠ .refused r

/-- R120, R201: an instruction that touches neither data memory nor a port cannot fault once it is decoded and its
register fields are valid, whatever its operands hold (that every register holds a value is log entry 1). -/
def Obligations.InstructionsOffMemoryAndPortsNeverFault : Prop :=
  ∀ (s : State) (w : Word) (i : Instr), s.cfg.wf = true → s.status = .running →
    s.prog[s.pc.toNat]? = some w → decode s.cfg w = .ok i → i.wf s.cfg = true →
    readsMem i = false → writesMem i = false → ioDev i s = none → s.Safe

/-! ## Jumping and branching -/

/-- R101: the target is the whole 56-bit field, unsigned, and is not checked before the next fetch. -/
def Obligations.JumpSetsThePc : Prop :=
  (∀ (c : Config) (j : BitVec 56), decode c (0x01#8 ++ j) = .ok (.jmp j)) ∧
  ∀ (s : State) (j : BitVec 56), ∃ t, exec (.jmp j) s = .next t ∧ t.pc.toNat = j.toNat ∧ JumpsTo s t t.pc ∧
    (s.cfg.wf = true → s.status = .running →
      (s.prog.length < j.toNat → step t = .fault (.fetchOutOfRange (j.setWidth 64))) ∧
      (j.toNat = s.prog.length → ∃ u, step t = .next u ∧ u.status = .halted))

/-- R102 to R107, with the mechanics of R100. -/
def Obligations.RegisterBranchesFollowTheirConditions : Prop :=
  RegBranch 0x02 .beq (fun a b => a = b) ∧
  RegBranch 0x03 .bneq (fun a b => a ≠ b) ∧
  RegBranch 0x04 .bl (fun a b => a.toInt < b.toInt) ∧
  RegBranch 0x05 .bleq (fun a b => a.toInt ≤ b.toInt) ∧
  RegBranch 0x06 .bg (fun a b => a.toInt > b.toInt) ∧
  RegBranch 0x07 .bgeq (fun a b => a.toInt ≥ b.toInt)

/-- R109 to R114, with the operands of R108 and R65 and the mechanics of R100; those six rules write the target for
`BR_BASE = pc`, and the other base is R5's and R100's parameter (log entry 23). -/
def Obligations.ImmediateBranchesFollowTheirConditions : Prop :=
  ImmBranch 0x12 .beqi (fun a b => a = b) ∧
  ImmBranch 0x13 .bneqi (fun a b => a ≠ b) ∧
  ImmBranch 0x14 .bli (fun a b => a.toInt < b.toInt) ∧
  ImmBranch 0x15 .bleqi (fun a b => a.toInt ≤ b.toInt) ∧
  ImmBranch 0x16 .bgi (fun a b => a.toInt > b.toInt) ∧
  ImmBranch 0x17 .bgeqi (fun a b => a.toInt ≥ b.toInt)

/-! ## ALU operations -/

/-- R123, R125, R127: modulo 2^64. -/
def Obligations.RegisterArithmeticWraps : Prop :=
  RegForm 0x80 .add (fun _ a b v => v.toNat = (a.toNat + b.toNat) % 2 ^ 64) ∧
  RegForm 0x81 .sub (fun _ a b v => (v.toNat : Int) = ((a.toNat : Int) - b.toNat) % 2 ^ 64) ∧
  RegForm 0x82 .mul (fun _ a b v => v.toNat = (a.toNat * b.toNat) % 2 ^ 64)

/-- R124, R126, R128. -/
def Obligations.ImmediateArithmeticWraps : Prop :=
  ImmForm 0x90 .addi (fun a b v => v.toNat = (a.toNat + b.toNat) % 2 ^ 64) ∧
  ImmForm 0x91 .subi (fun a b v => (v.toNat : Int) = ((a.toNat : Int) - b.toNat) % 2 ^ 64) ∧
  ImmForm 0x92 .muli (fun a b v => v.toNat = (a.toNat * b.toNat) % 2 ^ 64)

/-- R129, R131, R134, R136, R138, bit by bit. -/
def Obligations.RegisterLogicIsBitwise : Prop :=
  RegForm 0x83 .and (fun _ a b v => ∀ k < 64, (v.getLsbD k = true ↔ a.getLsbD k = true ∧ b.getLsbD k = true)) ∧
  RegForm 0x84 .or (fun _ a b v => ∀ k < 64, (v.getLsbD k = true ↔ a.getLsbD k = true ∨ b.getLsbD k = true)) ∧
  RegForm 0x86 .xor (fun _ a b v => ∀ k < 64, (v.getLsbD k = true ↔ a.getLsbD k ≠ b.getLsbD k)) ∧
  RegForm 0x87 .xnor (fun _ a b v => ∀ k < 64, (v.getLsbD k = true ↔ a.getLsbD k = b.getLsbD k)) ∧
  RegForm 0x88 .nor (fun _ a b v => ∀ k < 64, (v.getLsbD k = true ↔ a.getLsbD k = false ∧ b.getLsbD k = false))

/-- R130, R132, R135, R137, R139, bit by bit. -/
def Obligations.ImmediateLogicIsBitwise : Prop :=
  ImmForm 0x93 .andi (fun a b v => ∀ k < 64, (v.getLsbD k = true ↔ a.getLsbD k = true ∧ b.getLsbD k = true)) ∧
  ImmForm 0x94 .ori (fun a b v => ∀ k < 64, (v.getLsbD k = true ↔ a.getLsbD k = true ∨ b.getLsbD k = true)) ∧
  ImmForm 0x96 .xori (fun a b v => ∀ k < 64, (v.getLsbD k = true ↔ a.getLsbD k ≠ b.getLsbD k)) ∧
  ImmForm 0x97 .xnori (fun a b v => ∀ k < 64, (v.getLsbD k = true ↔ a.getLsbD k = b.getLsbD k)) ∧
  ImmForm 0x98 .nori (fun a b v => ∀ k < 64, (v.getLsbD k = true ↔ a.getLsbD k = false ∧ b.getLsbD k = false))

/-- R133: the result is 2^64 - 1 minus the operand; byte 3 names no register and is reserved, as the last four bytes
are; there is no immediate form. -/
def Obligations.NotInvertsEveryBit : Prop :=
  (∀ (c : Config) (r d : RegAddr), decode c (0x85#8 ++ r ++ 0#8 ++ d ++ 0#32) = .ok (.not r d)) ∧
  (∀ (c : Config) (r q d : RegAddr) (imm : BitVec 32), c.strictDecode = true → q ≠ 0 ∨ imm ≠ 0 →
    decode c (0x85#8 ++ r ++ q ++ d ++ imm) = .error (.reservedEncoding (0x85#8 ++ r ++ q ++ d ++ imm))) ∧
  (∀ (c : Config) (w : Word), opField w = 0x95 → decode c w = .error (.illegalInstruction w)) ∧
  ∀ (s : State) (r d : RegAddr), s.cfg.validReg r = true → s.cfg.validReg d = true →
    ∃ t v, exec (.not r d) s = .next t ∧ v.toNat = 2 ^ 64 - 1 - (s.readReg r).toNat ∧ WritesReg s t d v

/-- R140, R142, R144: the full 64-bit value 1 or 0. -/
def Obligations.RegisterComparisonsWriteZeroOrOne : Prop :=
  RegForm 0x89 .ceq (fun _ a b v => v = if a = b then 1 else 0) ∧
  RegForm 0x8A .clt (fun _ a b v => v = if a.toInt < b.toInt then 1 else 0) ∧
  RegForm 0x8B .clte (fun _ a b v => v = if a.toInt ≤ b.toInt then 1 else 0)

/-- R141, R143, R145. -/
def Obligations.ImmediateComparisonsWriteZeroOrOne : Prop :=
  ImmForm 0x99 .ceqi (fun a b v => v = if a = b then 1 else 0) ∧
  ImmForm 0x9A .clti (fun a b v => v = if a.toInt < b.toInt then 1 else 0) ∧
  ImmForm 0x9B .cltei (fun a b v => v = if a.toInt ≤ b.toInt then 1 else 0)

/-- R146, R148: by the low byte of the second register; those rules write `SHIFT_OVER = zero`, and the `mod64` clause
is R122's and R5's (log entry 23). -/
def Obligations.RegisterShiftsUseTheLowByte : Prop :=
  RegForm 0x8C .shr (fun c a b v => rightShifted c a (b.toNat % 256) v) ∧
  RegForm 0x8D .shl (fun c a b v => leftShifted c a (b.toNat % 256) v)

/-- R147, R149, with the ignored bits of R69; the `mod64` clause is R122's and R5's (log entry 23). -/
def Obligations.ImmediateShiftsUseTheLowByte : Prop :=
  ShiftForm 0x9C .shri rightShifted ∧ ShiftForm 0x9D .shli leftShifted

/-- R150, R152: by the low byte of the second register, modulo 64. -/
def Obligations.RegisterRotatesLoseNoBit : Prop :=
  RegForm 0x8E .rr (fun _ a b v => rightRotated a (b.toNat % 256) v) ∧
  RegForm 0x8F .rl (fun _ a b v => leftRotated a (b.toNat % 256) v)

/-- R151, R153. -/
def Obligations.ImmediateRotatesLoseNoBit : Prop :=
  ShiftForm 0x9E .rri (fun _ => rightRotated) ∧ ShiftForm 0x9F .rli (fun _ => leftRotated)

/-- R11, R76: what zero and sign extension do to a field of up to 64 bits. -/
def Obligations.FieldsAreWidenedByValue : Prop :=
  ∀ (n : Nat) (v : BitVec n), 0 < n → n ≤ 64 → (ext .zext v).toNat = v.toNat ∧ (ext .sext v).toInt = v.toInt

/-! ## IO and memory -/

/-- R161, R162: the word at the base register plus the offset, or at the direct address. -/
def Obligations.LoadsReadOneWord : Prop :=
  (∀ (c : Config) (m r : RegAddr) (a : BitVec 32), decode c (0x40#8 ++ m ++ 0#8 ++ r ++ a) = .ok (.lw m a r)) ∧
  (∀ (c : Config) (r : RegAddr) (a : BitVec 32), decode c (0x50#8 ++ 0#8 ++ 0#8 ++ r ++ a) = .ok (.lwi a r)) ∧
  (∀ (s : State) (m : RegAddr) (a : BitVec 32) (r : RegAddr), s.cfg.validReg m = true → s.cfg.validReg r = true →
    LoadsFrom (.lw m a r) s (s.readReg m + ext s.cfg.extOff a) r) ∧
  ∀ (s : State) (a : BitVec 32) (r : RegAddr), s.cfg.validReg r = true →
    LoadsFrom (.lwi a r) s (ext s.cfg.extOff a) r

/-- R163, R164: the whole register, to the word at the base register plus the offset or at the direct address. -/
def Obligations.StoresWriteOneWord : Prop :=
  (∀ (c : Config) (m r : RegAddr) (a : BitVec 32), decode c (0x41#8 ++ m ++ 0#8 ++ r ++ a) = .ok (.sw m a r)) ∧
  (∀ (c : Config) (r : RegAddr) (a : BitVec 32), decode c (0x51#8 ++ 0#8 ++ 0#8 ++ r ++ a) = .ok (.swi a r)) ∧
  (∀ (s : State) (m : RegAddr) (a : BitVec 32) (r : RegAddr), s.cfg.validReg m = true → s.cfg.validReg r = true →
    StoresTo (.sw m a r) s (s.readReg m + ext s.cfg.extOff a) (s.readReg r)) ∧
  ∀ (s : State) (a : BitVec 32) (r : RegAddr), s.cfg.validReg r = true →
    StoresTo (.swi a r) s (ext s.cfg.extOff a) (s.readReg r)

/-- R160, R203: a load or store beyond memory faults with the address, a load of a word that holds no value faults
with its address, in that order. -/
def Obligations.MemoryFaultsFollowTheirOrder : Prop :=
  (∀ (s : State) (m : RegAddr) (a : BitVec 32) (r : RegAddr), s.cfg.validReg m = true → s.cfg.validReg r = true →
    (s.cfg.memWords ≤ (s.baseAddr m a).toNat →
      exec (.lw m a r) s = .fault (.memOutOfRange (s.baseAddr m a)) ∧
      exec (.sw m a r) s = .fault (.memOutOfRange (s.baseAddr m a))) ∧
    ((s.baseAddr m a).toNat < s.cfg.memWords → s.wordAt (s.baseAddr m a) = none →
      exec (.lw m a r) s = .fault (.uninitRead (s.baseAddr m a)))) ∧
  ∀ (s : State) (a : BitVec 32) (r : RegAddr), s.cfg.validReg r = true →
    (s.cfg.memWords ≤ (s.directAddr a).toNat →
      exec (.lwi a r) s = .fault (.memOutOfRange (s.directAddr a)) ∧
      exec (.swi a r) s = .fault (.memOutOfRange (s.directAddr a))) ∧
    ((s.directAddr a).toNat < s.cfg.memWords → s.wordAt (s.directAddr a) = none →
      exec (.lwi a r) s = .fault (.uninitRead (s.directAddr a)))

/-- R41, R43: a word written by a store is read back unchanged by the load of the same address. -/
def Obligations.StoredWordsLoadBackUnchanged : Prop :=
  (∀ (s t : State) (m : RegAddr) (a : BitVec 32) (r d : RegAddr), exec (.sw m a r) s = .next t →
    s.cfg.validReg d = true → ∃ u, exec (.lw m a d) t = .next u ∧ Holds t u d (s.readReg r)) ∧
  ∀ (s t : State) (a : BitVec 32) (r d : RegAddr), exec (.swi a r) s = .next t →
    s.cfg.validReg d = true → ∃ u, exec (.lwi a d) t = .next u ∧ Holds t u d (s.readReg r)

/-- R165, R166: both read the device the immediate names.  The host's answers are log entry 3; one register as both
destinations is U7 and log entry 5. -/
def Obligations.IoReadsDeliverWordAndControlBit : Prop :=
  (∀ (c : Config) (r q : RegAddr) (a : BitVec 32), decode c (0x44#8 ++ 0#8 ++ r ++ q ++ a) = .ok (.lio a r q)) ∧
  (∀ (c : Config) (r q : RegAddr) (a : BitVec 32), decode c (0x54#8 ++ 0#8 ++ r ++ q ++ a) = .ok (.lioi a r q)) ∧
  ∀ (s : State) (a : BitVec 32) (r q : RegAddr), s.cfg.validReg r = true → s.cfg.validReg q = true →
    ReadsDevice (.lio a r q) s (ext s.cfg.extOff a) r q ∧ ReadsDevice (.lioi a r q) s (ext s.cfg.extOff a) r q

/-- R167, R168: `sio` sends to the base register plus the immediate (to the immediate under `SIO_ADDR = imm`, where
the base field is not used: log entry 14), `sioi` to the immediate.  The control bit is log entry 4. -/
def Obligations.IoWritesSendOneWord : Prop :=
  (∀ (c : Config) (m r : RegAddr) (a : BitVec 32), decode c (0x45#8 ++ m ++ 0#8 ++ r ++ a) = .ok (.sio m a r)) ∧
  (∀ (c : Config) (r : RegAddr) (a : BitVec 32), decode c (0x55#8 ++ 0#8 ++ 0#8 ++ r ++ a) = .ok (.sioi a r)) ∧
  (∀ (s : State) (m : RegAddr) (a : BitVec 32) (r : RegAddr), s.cfg.validReg r = true →
    (s.cfg.sioAddr = .basePlusImm → s.cfg.validReg m = true →
      WritesDevice (.sio m a r) s (s.readReg m + ext s.cfg.extOff a) (s.readReg r)) ∧
    (s.cfg.sioAddr = .imm → WritesDevice (.sio m a r) s (ext s.cfg.extOff a) (s.readReg r))) ∧
  ∀ (s : State) (a : BitVec 32) (r : RegAddr), s.cfg.validReg r = true →
    WritesDevice (.sioi a r) s (ext s.cfg.extOff a) (s.readReg r)

/-- R31: an access to a device number outside `DEVICES` raises `NoDevice`. -/
def Obligations.UnansweredDevicesFault : Prop :=
  ∀ (s : State) (i : Instr) (dev : Word), i.wf s.cfg = true → ioDev i s = some dev →
    s.cfg.devices.answers dev = false → exec i s = .fault (.noDevice dev)

/-! ## Call and return -/

/-- R181: `call` stores the saved pc at the new top of the stack, updates `sp` and jumps. -/
def Obligations.CallPushesAndJumps : Prop :=
  (∀ (c : Config) (j : BitVec 56), decode c (0x42#8 ++ j) = .ok (.call j)) ∧
  (∀ (s : State), (s.cfg.stackDir = .downPre → s.pushAddr = s.readReg s.cfg.regSp - 1) ∧
    (s.cfg.stackDir = .upPost → s.pushAddr = s.readReg s.cfg.regSp)) ∧
  ∀ (s : State) (j : BitVec 56),
    (s.pushAddr.toNat < s.cfg.memWords →
      ∃ t, exec (.call j) s = .next t ∧ t.pc.toNat = j.toNat ∧
        t.wordAt s.pushAddr = some (if s.cfg.callSaves = .pc then s.pc else s.pc + 1) ∧
        SameMemOutside s.pushAddr s t ∧
        Holds s t s.cfg.regSp (if s.cfg.stackDir = .downPre then s.readReg s.cfg.regSp - 1 else s.readReg s.cfg.regSp + 1) ∧
        SameRegsBut [s.cfg.regSp] s t ∧ SameIo s t ∧ SameRun s t) ∧
    (s.cfg.memWords ≤ s.pushAddr.toNat → exec (.call j) s = .fault (.memOutOfRange s.pushAddr))

/-- R182: `ret` puts the top word of the stack into the pc and updates `sp`; memory is not changed. -/
def Obligations.RetPopsAndReturns : Prop :=
  (∀ (c : Config), decode c (0x43#8 ++ 0#56) = .ok .ret) ∧
  (∀ (s : State), (s.cfg.stackDir = .downPre → s.popAddr = s.readReg s.cfg.regSp) ∧
    (s.cfg.stackDir = .upPost → s.popAddr = s.readReg s.cfg.regSp - 1)) ∧
  ∀ (s : State),
    (∀ v, s.popAddr.toNat < s.cfg.memWords → s.wordAt s.popAddr = some v →
      ∃ t, exec .ret s = .next t ∧ t.pc = (if s.cfg.callSaves = .pc then v + 1 else v) ∧ SameMem s t ∧
        Holds s t s.cfg.regSp (if s.cfg.stackDir = .downPre then s.readReg s.cfg.regSp + 1 else s.readReg s.cfg.regSp - 1) ∧
        SameRegsBut [s.cfg.regSp] s t ∧ SameIo s t ∧ SameRun s t) ∧
    (s.cfg.memWords ≤ s.popAddr.toNat → exec .ret s = .fault (.memOutOfRange s.popAddr)) ∧
    (s.popAddr.toNat < s.cfg.memWords → s.wordAt s.popAddr = none → exec .ret s = .fault (.uninitRead s.popAddr))

/-- R180: after `ret`, execution continues with the instruction that follows the matching `call`, and `sp` is back at
its value before the `call`, whatever `STACK_DIR` and `CALL_SAVES` are: `u` is any state reached after the `call`
in which the stack pointer and the memory are as the `call` left them. -/
def Obligations.ReturnContinuesAfterTheCall : Prop :=
  ∀ (s t u : State) (j : BitVec 56), s.cfg.wf = true → exec (.call j) s = .next t →
    u.cfg = t.cfg → u.readReg s.cfg.regSp = t.readReg s.cfg.regSp → SameMem t u →
    ∃ v, exec .ret u = .next v ∧ v.pc = s.pc + 1 ∧ v.readReg s.cfg.regSp = s.readReg s.cfg.regSp
end

