-- ==== Sys2Proof/Laws/Decode.lean ====
section
/-!
SUPPORT. What the fields of a packed word read as, and what the opcode table holds.
-/

namespace Sys2Proof

/-! ## Fields of a word packed by bytes -/

@[simp] theorem opField_packBytes (op b2 b3 b4 : Byte) (imm : BitVec 32) :
    opField (packBytes op b2 b3 b4 imm) = op := by
  apply BitVec.eq_of_getLsbD_eq
  intro i hi
  simp only [opField, packBytes, BitVec.getLsbD_extractLsb', BitVec.getLsbD_append, hi, decide_true, Bool.true_and]
  repeat' split
  all_goals first
    | omega
    | (congr 1; omega)

@[simp] theorem b2Field_packBytes (op b2 b3 b4 : Byte) (imm : BitVec 32) :
    b2Field (packBytes op b2 b3 b4 imm) = b2 := by
  apply BitVec.eq_of_getLsbD_eq
  intro i hi
  simp only [b2Field, packBytes, BitVec.getLsbD_extractLsb', BitVec.getLsbD_append, hi, decide_true, Bool.true_and]
  repeat' split
  all_goals first
    | omega
    | (congr 1; omega)

@[simp] theorem b3Field_packBytes (op b2 b3 b4 : Byte) (imm : BitVec 32) :
    b3Field (packBytes op b2 b3 b4 imm) = b3 := by
  apply BitVec.eq_of_getLsbD_eq
  intro i hi
  simp only [b3Field, packBytes, BitVec.getLsbD_extractLsb', BitVec.getLsbD_append, hi, decide_true, Bool.true_and]
  repeat' split
  all_goals first
    | omega
    | (congr 1; omega)

@[simp] theorem b4Field_packBytes (op b2 b3 b4 : Byte) (imm : BitVec 32) :
    b4Field (packBytes op b2 b3 b4 imm) = b4 := by
  apply BitVec.eq_of_getLsbD_eq
  intro i hi
  simp only [b4Field, packBytes, BitVec.getLsbD_extractLsb', BitVec.getLsbD_append, hi, decide_true, Bool.true_and]
  repeat' split
  all_goals first
    | omega
    | (congr 1; omega)

@[simp] theorem imm32Field_packBytes (op b2 b3 b4 : Byte) (imm : BitVec 32) :
    imm32Field (packBytes op b2 b3 b4 imm) = imm := by
  apply BitVec.eq_of_getLsbD_eq
  intro i hi
  simp only [imm32Field, packBytes, BitVec.getLsbD_extractLsb', BitVec.getLsbD_append, hi, decide_true, Bool.true_and]
  repeat' split
  all_goals first
    | omega
    | (congr 1; omega)

@[simp] theorem imm8Field_packBytes (op b2 b3 b4 : Byte) (n : BitVec 8) :
    imm8Field (packBytes op b2 b3 b4 (n.setWidth 32)) = n := by
  apply BitVec.eq_of_getLsbD_eq
  intro i hi
  simp only [imm8Field, packBytes, BitVec.getLsbD_extractLsb', BitVec.getLsbD_append, hi]
  simp [show i < 32 by omega]

/-! ## Fields of the other two layouts -/

@[simp] theorem opField_packJump (op : Byte) (j : BitVec 56) : opField (packJump op j) = op := by
  apply BitVec.eq_of_getLsbD_eq
  intro i hi
  simp only [opField, packJump, BitVec.getLsbD_extractLsb', BitVec.getLsbD_append, hi, decide_true, Bool.true_and]
  repeat' split
  all_goals first
    | omega
    | (congr 1; omega)

@[simp] theorem imm56Field_packJump (op : Byte) (j : BitVec 56) : imm56Field (packJump op j) = j := by
  apply BitVec.eq_of_getLsbD_eq
  intro i hi
  simp only [imm56Field, packJump, BitVec.getLsbD_extractLsb', BitVec.getLsbD_append, hi, decide_true, Bool.true_and]
  repeat' split
  all_goals first
    | omega
    | (congr 1; omega)

@[simp] theorem opField_packShort (op r : Byte) (t : BitVec 16) (s : BitVec 32) :
    opField (packShort op r t s) = op := by
  apply BitVec.eq_of_getLsbD_eq
  intro i hi
  simp only [opField, packShort, BitVec.getLsbD_extractLsb', BitVec.getLsbD_append, hi, decide_true, Bool.true_and]
  repeat' split
  all_goals first
    | omega
    | (congr 1; omega)

@[simp] theorem b2Field_packShort (op r : Byte) (t : BitVec 16) (s : BitVec 32) :
    b2Field (packShort op r t s) = r := by
  apply BitVec.eq_of_getLsbD_eq
  intro i hi
  simp only [b2Field, packShort, BitVec.getLsbD_extractLsb', BitVec.getLsbD_append, hi, decide_true, Bool.true_and]
  repeat' split
  all_goals first
    | omega
    | (congr 1; omega)

@[simp] theorem imm16Field_packShort (op r : Byte) (t : BitVec 16) (s : BitVec 32) :
    imm16Field (packShort op r t s) = t := by
  apply BitVec.eq_of_getLsbD_eq
  intro i hi
  simp only [imm16Field, packShort, BitVec.getLsbD_extractLsb', BitVec.getLsbD_append, hi, decide_true, Bool.true_and]
  repeat' split
  all_goals first
    | omega
    | (congr 1; omega)

@[simp] theorem imm32Field_packShort (op r : Byte) (t : BitVec 16) (s : BitVec 32) :
    imm32Field (packShort op r t s) = s := by
  apply BitVec.eq_of_getLsbD_eq
  intro i hi
  simp only [imm32Field, packShort, BitVec.getLsbD_extractLsb', BitVec.getLsbD_append, hi, decide_true, Bool.true_and]
  repeat' split
  all_goals first
    | omega
    | (congr 1; omega)

/-! ## A word is its fields -/

/-- A word packed from its own five fields is the word. -/
theorem packBytes_fields (w : Word) :
    packBytes (opField w) (b2Field w) (b3Field w) (b4Field w) (imm32Field w) = w := by
  apply BitVec.eq_of_getLsbD_eq
  intro i hi
  simp only [packBytes, opField, b2Field, b3Field, b4Field, imm32Field, BitVec.getLsbD_append,
    BitVec.getLsbD_extractLsb']
  repeat' split
  all_goals
    rw [decide_eq_true (by omega), Bool.true_and]
    congr 1
    omega

/-- Two words are equal exactly if their five fields are. -/
theorem packBytes_inj {o b c d o' b' c' d' : Byte} {i i' : BitVec 32} :
    packBytes o b c d i = packBytes o' b' c' d' i' ↔ o = o' ∧ b = b' ∧ c = c' ∧ d = d' ∧ i = i' := by
  constructor
  · intro h
    refine ⟨?_, ?_, ?_, ?_, ?_⟩
    · simpa using congrArg opField h
    · simpa using congrArg b2Field h
    · simpa using congrArg b3Field h
    · simpa using congrArg b4Field h
    · simpa using congrArg imm32Field h
  · rintro ⟨rfl, rfl, rfl, rfl, rfl⟩; rfl

/-- `and` works field by field. -/
theorem packBytes_and (o b c d o' b' c' d' : Byte) (i i' : BitVec 32) :
    packBytes o b c d i &&& packBytes o' b' c' d' i' =
      packBytes (o &&& o') (b &&& b') (c &&& c') (d &&& d') (i &&& i') := by
  rw [← packBytes_fields (packBytes o b c d i &&& packBytes o' b' c' d' i'), packBytes_inj]
  have h : ∀ (x y : Word) (a k : Nat), (x &&& y).extractLsb' a k = x.extractLsb' a k &&& y.extractLsb' a k :=
    fun x y a k => BitVec.extractLsb'_and
  refine ⟨?_, ?_, ?_, ?_, ?_⟩
  · exact (h _ _ _ _).trans (congrArg₂ _ (opField_packBytes ..) (opField_packBytes ..))
  · exact (h _ _ _ _).trans (congrArg₂ _ (b2Field_packBytes ..) (b2Field_packBytes ..))
  · exact (h _ _ _ _).trans (congrArg₂ _ (b3Field_packBytes ..) (b3Field_packBytes ..))
  · exact (h _ _ _ _).trans (congrArg₂ _ (b4Field_packBytes ..) (b4Field_packBytes ..))
  · exact (h _ _ _ _).trans (congrArg₂ _ (imm32Field_packBytes ..) (imm32Field_packBytes ..))

/-- The last seven bytes are zero exactly if each field of them is. -/
theorem imm56Field_eq_zero (w : Word) :
    imm56Field w = 0 ↔ b2Field w = 0 ∧ b3Field w = 0 ∧ b4Field w = 0 ∧ imm32Field w = 0 := by
  have h56 : ∀ k < 56, (imm56Field w).getLsbD k = w.getLsbD k := fun k hk => by
    simp [imm56Field, hk]
  constructor
  · intro h
    have hw : ∀ k < 56, w.getLsbD k = false := fun k hk => by rw [← h56 k hk, h]; simp
    refine ⟨?_, ?_, ?_, ?_⟩ <;> apply BitVec.eq_of_getLsbD_eq <;> intro k hk
    · simp only [b2Field, BitVec.getLsbD_extractLsb', hw (48 + k) (by omega)]; simp
    · simp only [b3Field, BitVec.getLsbD_extractLsb', hw (40 + k) (by omega)]; simp
    · simp only [b4Field, BitVec.getLsbD_extractLsb', hw (32 + k) (by omega)]; simp
    · simp only [imm32Field, BitVec.getLsbD_extractLsb', hw (0 + k) (by omega)]; simp
  · rintro ⟨h2, h3, h4, h5⟩
    have hw := packBytes_fields w
    rw [h2, h3, h4, h5] at hw
    rw [← hw]
    apply BitVec.eq_of_getLsbD_eq
    intro k hk
    simp only [imm56Field, packBytes, BitVec.getLsbD_extractLsb', BitVec.getLsbD_append]
    repeat' split
    all_goals first
      | omega
      | simp

/-- The masked comparison of R80 step 2 asks for the opcode and for the documented-zero fields of R78. -/
theorem masked_eq_iff (f : Format) (w : Word) (op : Byte) :
    w &&& f.mask = op ++ 0#56 ↔ opField w = op ∧ f.zeroFields w := by
  have hop : packJump op 0 = packBytes op 0 0 0 0 := by
    obtain ⟨h2, h3, h4, h5⟩ := (imm56Field_eq_zero (packJump op 0)).1 (imm56Field_packJump op 0)
    rw [← packBytes_fields (packJump op 0), packBytes_inj]
    exact ⟨opField_packJump op 0, h2, h3, h4, h5⟩
  have hff : ∀ x : BitVec 8, x &&& 255#8 = x := fun x => BitVec.and_allOnes
  have hffff : ∀ x : BitVec 32, x &&& 4294967295#32 = x := fun x => BitVec.and_allOnes
  have key : ∀ a b c d : Byte, ∀ i : BitVec 32, w &&& packBytes a b c d i = op ++ 0#56 ↔
      opField w &&& a = op ∧ b2Field w &&& b = 0 ∧ b3Field w &&& c = 0 ∧ b4Field w &&& d = 0 ∧
        imm32Field w &&& i = 0 := fun a b c d i => by
    rw [← packBytes_inj, ← packBytes_and, packBytes_fields, ← hop]; rfl
  cases f
  case J => rw [show Format.J.mask = packBytes 0xFF 0 0 0 0 by decide, key]; simp [hff, Format.zeroFields]
  case B => rw [show Format.B.mask = packBytes 0xFF 0 0 0xFF 0 by decide, key]; simp [hff, Format.zeroFields]
  case BI => rw [show Format.BI.mask = packBytes 0xFF 0 0 0 0 by decide, key]; simp [hff, Format.zeroFields]
  case R3 =>
    rw [show Format.R3.mask = packBytes 0xFF 0 0 0 0xFFFFFFFF by decide, key]; simp [hff, hffff, Format.zeroFields]
  case R2 =>
    rw [show Format.R2.mask = packBytes 0xFF 0 0xFF 0 0xFFFFFFFF by decide, key]; simp [hff, hffff, Format.zeroFields]
  case I => rw [show Format.I.mask = packBytes 0xFF 0 0xFF 0 0 by decide, key]; simp [hff, Format.zeroFields]
  case SH => rw [show Format.SH.mask = packBytes 0xFF 0 0xFF 0 0 by decide, key]; simp [hff, Format.zeroFields]
  case M => rw [show Format.M.mask = packBytes 0xFF 0 0xFF 0 0 by decide, key]; simp [hff, Format.zeroFields]
  case MI => rw [show Format.MI.mask = packBytes 0xFF 0xFF 0xFF 0 0 by decide, key]; simp [hff, Format.zeroFields]
  case IO => rw [show Format.IO.mask = packBytes 0xFF 0xFF 0 0 0 by decide, key]; simp [hff, Format.zeroFields]
  case N =>
    rw [show Format.N.mask = packBytes 0xFF 0xFF 0xFF 0xFF 0xFFFFFFFF by decide, key, Format.zeroFields,
      imm56Field_eq_zero]
    simp [hff, hffff]

/-! ## The table -/

/-- No opcode stands in two rows, and there are 54 rows (R75). -/
theorem opTable_nodup : (opTable.map OpRow.opcode).Nodup ∧ opTable.length = 54 := by decide

/-- What `decode` can answer: the table's instruction, or one of the two errors under its own condition. -/
theorem decode_cases (c : Config) (w : Word) :
    (rowOf w = none ∧ decode c w = .error (.illegalInstruction w)) ∨
    (∃ row, rowOf w = some row ∧ c.strictDecode = true ∧ w &&& row.format.mask ≠ row.matchValue ∧
      decode c w = .error (.reservedEncoding w)) ∨
    (∃ row, rowOf w = some row ∧ (c.strictDecode = true → w &&& row.format.mask = row.matchValue) ∧
      decode c w = .ok (row.build w)) := by
  unfold decode
  cases h : rowOf w with
  | none => exact .inl ⟨rfl, rfl⟩
  | some row =>
    by_cases hs : c.strictDecode = true <;> by_cases hm : w &&& row.format.mask = row.matchValue <;> simp [hs, hm]

end Sys2Proof
end

