-- ==== Sys2Proof/Laws/Memory.lean ====
section
/-!
SUPPORT. What the memory operations can do, each said once: what every cell and every word reads as after a
write, and that every operation keeps the canonical form.
-/

namespace Sys2Proof.Machine

/-! ## One cell -/

theorem Memory.readByte_insertByte (fill : Option Byte) (m : Memory) (k j : Nat) (b : Byte) :
    (m.insertByte k b).readByte fill j = if j = k then some b else m.readByte fill j := by
  induction m with
  | nil => by_cases h : k = j <;> simp [insertByte, readByte, h, eq_comm]
  | cons x rest ih =>
    obtain ⟨a, c⟩ := x
    by_cases hlt : k < a
    · by_cases h : j = k
      · subst h; simp [insertByte, readByte, hlt]
      · simp [insertByte, readByte, hlt, h, Ne.symm h]
    · by_cases heq : k = a
      · subst heq
        by_cases h : k = j <;> simp [insertByte, readByte, h, eq_comm]
      · simp only [insertByte, hlt, heq, if_false, readByte, ih]
        by_cases h : a = j
        · simp [h, show ¬ j = k from fun e => heq (e ▸ h.symm)]
        · simp [h]

theorem Memory.readByte_eraseByte (fill : Option Byte) (m : Memory) (k j : Nat) :
    (m.eraseByte k).readByte fill j = if j = k then fill else m.readByte fill j := by
  induction m with
  | nil => simp [eraseByte, readByte]
  | cons x rest ih =>
    obtain ⟨a, c⟩ := x
    simp only [eraseByte] at ih
    by_cases h : a = k
    · subst h
      by_cases hj : j = a
      · subst hj; simpa [eraseByte] using ih
      · simpa [eraseByte, readByte, hj, Ne.symm hj] using ih
    · by_cases hj : a = j
      · subst hj; simp [eraseByte, readByte, h]
      · simpa [eraseByte, readByte, h, hj] using ih

/-- A cell reads as the byte last written to it; every other cell reads as before. -/
theorem Memory.readByte_writeByte (fill : Option Byte) (m : Memory) (k j : Nat) (b : Byte) :
    (m.writeByte fill k b).readByte fill j = if j = k then some b else m.readByte fill j := by
  unfold writeByte
  split
  · rename_i h; rw [readByte_eraseByte, h]
  · exact readByte_insertByte fill m k j b

/-! ## The canonical form -/

theorem Memory.mem_insertByte {m : Memory} {k : Nat} {b : Byte} {x : Host.Cell} (h : x ∈ m.insertByte k b) :
    x = (k, b) ∨ x ∈ m := by
  induction m with
  | nil => simpa [insertByte] using h
  | cons y rest ih =>
    obtain ⟨a, c⟩ := y
    unfold insertByte at h
    split at h
    · simpa using h
    · split at h
      · rcases List.mem_cons.1 h with h | h
        · exact .inl h
        · exact .inr (List.mem_cons_of_mem _ h)
      · rcases List.mem_cons.1 h with h | h
        · exact .inr (h ▸ List.mem_cons_self)
        · exact (ih h).imp_right (List.mem_cons_of_mem _)

theorem Memory.sorted_insertByte {m : Memory} (k : Nat) (b : Byte) (h : m.Pairwise fun x y => x.1 < y.1) :
    (m.insertByte k b).Pairwise fun x y => x.1 < y.1 := by
  induction m with
  | nil => simp [insertByte]
  | cons y rest ih =>
    obtain ⟨a, c⟩ := y
    obtain ⟨hhead, htail⟩ := List.pairwise_cons.1 h
    unfold insertByte
    split
    · rename_i hlt
      refine List.pairwise_cons.2 ⟨fun x hx => ?_, h⟩
      rcases List.mem_cons.1 hx with rfl | hx
      · exact hlt
      · exact Nat.lt_trans hlt (hhead x hx)
    · split
      · rename_i heq
        exact List.pairwise_cons.2 ⟨fun x hx => heq ▸ hhead x hx, htail⟩
      · rename_i hlt hne
        refine List.pairwise_cons.2 ⟨fun x hx => ?_, ih htail⟩
        rcases mem_insertByte hx with rfl | hx
        · exact Nat.lt_of_le_of_ne (Nat.le_of_not_lt hlt) (Ne.symm hne)
        · exact hhead x hx

/-- A cell listed after a write was listed before, or is the one written. -/
theorem Memory.mem_writeByte {fill : Option Byte} {m : Memory} {k : Nat} {b : Byte} {x : Host.Cell}
    (h : x ∈ m.writeByte fill k b) : x = (k, b) ∨ x ∈ m := by
  unfold writeByte at h
  split at h
  · exact .inr (List.mem_filter.1 h).1
  · exact mem_insertByte h

/-- Writing one byte keeps the canonical form. -/
theorem Memory.wf_writeByte {fill : Option Byte} {m : Memory} (k : Nat) (b : Byte) (h : Memory.wf fill m) :
    Memory.wf fill (m.writeByte fill k b) := by
  refine ⟨?_, fun x hx => ?_⟩
  · unfold writeByte
    split
    · exact h.1.filter _
    · exact sorted_insertByte k b h.1
  · unfold writeByte at hx
    split at hx
    · exact h.2 x (List.mem_filter.1 hx).1
    · rename_i hne
      rcases mem_insertByte hx with rfl | hx
      · exact hne
      · exact h.2 x hx

/-! ## Words -/

theorem Memory.readByte_writeBytes (fill : Option Byte) (m : Memory) (a : Nat) (v : Word) (n j : Nat) :
    (m.writeBytes fill a v n).readByte fill j =
      if 8 * a ≤ j ∧ j < 8 * a + n then some (wordByte v (j - 8 * a)) else m.readByte fill j := by
  induction n with
  | zero => simp [writeBytes, show ¬ (8 * a ≤ j ∧ j < 8 * a) by omega]
  | succ n ih =>
    rw [writeBytes, readByte_writeByte, ih]
    by_cases hj : j = 8 * a + n
    · subst hj; simp
    · have : (8 * a ≤ j ∧ j < 8 * a + (n + 1)) ↔ (8 * a ≤ j ∧ j < 8 * a + n) := by omega
      simp [hj, this]

/-- What every cell reads as after a word is written: the word's bytes in its eight cells, the rest as
before. -/
theorem Memory.readByte_writeWord (fill : Option Byte) (m : Memory) (a : Nat) (v : Word) (j : Nat) :
    (m.writeWord fill a v).readByte fill j = if j / 8 = a then some (wordByte v (j % 8)) else m.readByte fill j := by
  rw [writeWord, readByte_writeBytes]
  by_cases h : j / 8 = a
  · have h1 : 8 * a ≤ j ∧ j < 8 * a + 8 := by omega
    have h2 : j - 8 * a = j % 8 := by omega
    simp [h, h1, h2]
  · have h1 : ¬ (8 * a ≤ j ∧ j < 8 * a + 8) := by omega
    simp [h, h1]

theorem wordOfBytes_wordByte (v : Word) :
    wordOfBytes (wordByte v 0) (wordByte v 1) (wordByte v 2) (wordByte v 3) (wordByte v 4) (wordByte v 5)
      (wordByte v 6) (wordByte v 7) = v := by
  apply BitVec.eq_of_getLsbD_eq
  intro i hi
  simp only [wordOfBytes, wordByte, BitVec.getLsbD_append, BitVec.getLsbD_extractLsb']
  repeat' split
  all_goals
    rw [decide_eq_true (by omega), Bool.true_and]
    congr 1
    omega

/-- A word reads as `v` if its eight cells read as the bytes of `v`. -/
theorem Memory.readWord_of_bytes {fill : Option Byte} {m : Memory} {a : Nat} {v : Word}
    (h : ∀ k < 8, m.readByte fill (8 * a + k) = some (wordByte v k)) : m.readWord fill a = some v := by
  have h0 := h 0 (by omega)
  have h1 := h 1 (by omega)
  have h2 := h 2 (by omega)
  have h3 := h 3 (by omega)
  have h4 := h 4 (by omega)
  have h5 := h 5 (by omega)
  have h6 := h 6 (by omega)
  have h7 := h 7 (by omega)
  rw [Nat.add_zero] at h0
  simp [readWord, h0, h1, h2, h3, h4, h5, h6, h7, wordOfBytes_wordByte]

/-- A word depends on its own eight cells only. -/
theorem Memory.readWord_congr {fill : Option Byte} {m m' : Memory} {a : Nat}
    (h : ∀ k, k / 8 = a → m'.readByte fill k = m.readByte fill k) : m'.readWord fill a = m.readWord fill a := by
  simp only [readWord, h (8 * a) (by omega), h (8 * a + 1) (by omega), h (8 * a + 2) (by omega),
    h (8 * a + 3) (by omega), h (8 * a + 4) (by omega), h (8 * a + 5) (by omega), h (8 * a + 6) (by omega),
    h (8 * a + 7) (by omega)]

/-- A word written reads back, bit for bit (R41, R43). -/
theorem Memory.readWord_writeWord_same (fill : Option Byte) (m : Memory) (a : Nat) (v : Word) :
    (m.writeWord fill a v).readWord fill a = some v := by
  refine readWord_of_bytes fun k hk => ?_
  rw [readByte_writeWord, if_pos (by omega), show (8 * a + k) % 8 = k by omega]

/-- Writing a word leaves every other word alone. -/
theorem Memory.readWord_writeWord_ne (fill : Option Byte) (m : Memory) {a b : Nat} (h : b ≠ a) (v : Word) :
    (m.writeWord fill a v).readWord fill b = m.readWord fill b :=
  readWord_congr fun k hk => by rw [readByte_writeWord, if_neg (by omega)]

theorem Memory.wf_writeBytes {fill : Option Byte} {m : Memory} (a : Nat) (v : Word) (n : Nat)
    (h : Memory.wf fill m) : Memory.wf fill (m.writeBytes fill a v n) := by
  induction n with
  | zero => exact h
  | succ n ih => exact wf_writeByte _ _ ih

/-- Writing a word keeps the canonical form. -/
theorem Memory.wf_writeWord {fill : Option Byte} {m : Memory} (a : Nat) (v : Word) (h : Memory.wf fill m) :
    Memory.wf fill (m.writeWord fill a v) := wf_writeBytes a v 8 h

theorem Memory.mem_writeBytes {fill : Option Byte} {m : Memory} {a : Nat} {v : Word} {n : Nat} {x : Host.Cell}
    (h : x ∈ m.writeBytes fill a v n) : (8 * a ≤ x.1 ∧ x.1 < 8 * a + n) ∨ x ∈ m := by
  induction n with
  | zero => exact .inr h
  | succ n ih =>
    rcases mem_writeByte h with rfl | h
    · left; simp
    · exact (ih h).imp_left fun hb => ⟨hb.1, by omega⟩

/-- A cell listed after a word is written was listed before, or is one of the word's eight. -/
theorem Memory.mem_writeWord {fill : Option Byte} {m : Memory} {a : Nat} {v : Word} {x : Host.Cell}
    (h : x ∈ m.writeWord fill a v) : (8 * a ≤ x.1 ∧ x.1 < 8 * a + 8) ∨ x ∈ m := mem_writeBytes h

/-- A word reads as something exactly if all its cells hold a byte. -/
theorem Memory.readWord_isSome_iff (fill : Option Byte) (m : Memory) (a : Nat) :
    (m.readWord fill a).isSome = true ↔ ∀ k < 8, (m.readByte fill (8 * a + k)).isSome = true := by
  constructor
  · intro h k hk
    simp only [readWord, Option.isSome_iff_exists, Option.bind_eq_bind, Option.bind_eq_some_iff] at h
    obtain ⟨_, _, h0, _, h1, _, h2, _, h3, _, h4, _, h5, _, h6, _, h7, _⟩ := h
    interval_cases k <;> simp_all
  · intro h
    obtain ⟨_, h0⟩ := Option.isSome_iff_exists.1 (h 0 (by omega))
    obtain ⟨_, h1⟩ := Option.isSome_iff_exists.1 (h 1 (by omega))
    obtain ⟨_, h2⟩ := Option.isSome_iff_exists.1 (h 2 (by omega))
    obtain ⟨_, h3⟩ := Option.isSome_iff_exists.1 (h 3 (by omega))
    obtain ⟨_, h4⟩ := Option.isSome_iff_exists.1 (h 4 (by omega))
    obtain ⟨_, h5⟩ := Option.isSome_iff_exists.1 (h 5 (by omega))
    obtain ⟨_, h6⟩ := Option.isSome_iff_exists.1 (h 6 (by omega))
    obtain ⟨_, h7⟩ := Option.isSome_iff_exists.1 (h 7 (by omega))
    rw [Nat.add_zero] at h0
    simp [readWord, h0, h1, h2, h3, h4, h5, h6, h7]

/-- The memory right after reset is canonical. -/
theorem State.reset_mem_wf : Memory.wf State.reset.cfg.memFill State.reset.mem := by
  simp [Memory.wf, State.reset]

end Sys2Proof.Machine
end

