-- ==== Sys2Proof/Laws/State.lean ====
section
/-!
SUPPORT. What each field of the state is after each named update, and what reading a register is after each.
Later proofs cite these and unfold no record update.
-/

namespace Sys2Proof.Machine

/-! ## `State.setPc` -/

@[simp] theorem State.setPc_regs (s : State) (v : Word) : (s.setPc v).regs = s.regs := rfl
@[simp] theorem State.setPc_pc (s : State) (v : Word) : (s.setPc v).pc = v := rfl
@[simp] theorem State.setPc_mem (s : State) (v : Word) : (s.setPc v).mem = s.mem := rfl
@[simp] theorem State.setPc_iotrace (s : State) (v : Word) : (s.setPc v).iotrace = s.iotrace := rfl
@[simp] theorem State.setPc_status (s : State) (v : Word) : (s.setPc v).status = s.status := rfl
@[simp] theorem State.setPc_prog (s : State) (v : Word) : (s.setPc v).prog = s.prog := rfl
@[simp] theorem State.setPc_cfg (s : State) (v : Word) : (s.setPc v).cfg = s.cfg := rfl
@[simp] theorem State.setPc_ioIn (s : State) (v : Word) : (s.setPc v).ioIn = s.ioIn := rfl
@[simp] theorem State.setPc_draws (s : State) (v : Word) : (s.setPc v).draws = s.draws := rfl

@[simp] theorem State.setPc_readReg (s : State) (v : Word) (q : RegAddr) : (s.setPc v).readReg q = s.readReg q := rfl
@[simp] theorem State.setPc_isNptr (s : State) (v : Word) (q : RegAddr) : (s.setPc v).isNptr q = s.isNptr q := rfl

/-! ## `State.advance` -/

@[simp] theorem State.advance_regs (s : State) : (s.advance).regs = s.regs := rfl
@[simp] theorem State.advance_pc (s : State) : (s.advance).pc = s.pc + Config.pcStep := rfl
@[simp] theorem State.advance_mem (s : State) : (s.advance).mem = s.mem := rfl
@[simp] theorem State.advance_iotrace (s : State) : (s.advance).iotrace = s.iotrace := rfl
@[simp] theorem State.advance_status (s : State) : (s.advance).status = s.status := rfl
@[simp] theorem State.advance_prog (s : State) : (s.advance).prog = s.prog := rfl
@[simp] theorem State.advance_cfg (s : State) : (s.advance).cfg = s.cfg := rfl
@[simp] theorem State.advance_ioIn (s : State) : (s.advance).ioIn = s.ioIn := rfl
@[simp] theorem State.advance_draws (s : State) : (s.advance).draws = s.draws := rfl

@[simp] theorem State.advance_readReg (s : State) (q : RegAddr) : (s.advance).readReg q = s.readReg q := rfl
@[simp] theorem State.advance_isNptr (s : State) (q : RegAddr) : (s.advance).isNptr q = s.isNptr q := rfl

/-! ## `State.setMem` -/

@[simp] theorem State.setMem_regs (s : State) (m : Memory) : (s.setMem m).regs = s.regs := rfl
@[simp] theorem State.setMem_pc (s : State) (m : Memory) : (s.setMem m).pc = s.pc := rfl
@[simp] theorem State.setMem_mem (s : State) (m : Memory) : (s.setMem m).mem = m := rfl
@[simp] theorem State.setMem_iotrace (s : State) (m : Memory) : (s.setMem m).iotrace = s.iotrace := rfl
@[simp] theorem State.setMem_status (s : State) (m : Memory) : (s.setMem m).status = s.status := rfl
@[simp] theorem State.setMem_prog (s : State) (m : Memory) : (s.setMem m).prog = s.prog := rfl
@[simp] theorem State.setMem_cfg (s : State) (m : Memory) : (s.setMem m).cfg = s.cfg := rfl
@[simp] theorem State.setMem_ioIn (s : State) (m : Memory) : (s.setMem m).ioIn = s.ioIn := rfl
@[simp] theorem State.setMem_draws (s : State) (m : Memory) : (s.setMem m).draws = s.draws := rfl

@[simp] theorem State.setMem_readReg (s : State) (m : Memory) (q : RegAddr) : (s.setMem m).readReg q = s.readReg q := rfl
@[simp] theorem State.setMem_isNptr (s : State) (m : Memory) (q : RegAddr) : (s.setMem m).isNptr q = s.isNptr q := rfl

/-! ## `State.recordIo` -/

@[simp] theorem State.recordIo_regs (s : State) (e : IoEvent) : (s.recordIo e).regs = s.regs := rfl
@[simp] theorem State.recordIo_pc (s : State) (e : IoEvent) : (s.recordIo e).pc = s.pc := rfl
@[simp] theorem State.recordIo_mem (s : State) (e : IoEvent) : (s.recordIo e).mem = s.mem := rfl
@[simp] theorem State.recordIo_iotrace (s : State) (e : IoEvent) : (s.recordIo e).iotrace = s.iotrace ++ [e] := rfl
@[simp] theorem State.recordIo_status (s : State) (e : IoEvent) : (s.recordIo e).status = s.status := rfl
@[simp] theorem State.recordIo_prog (s : State) (e : IoEvent) : (s.recordIo e).prog = s.prog := rfl
@[simp] theorem State.recordIo_cfg (s : State) (e : IoEvent) : (s.recordIo e).cfg = s.cfg := rfl
@[simp] theorem State.recordIo_ioIn (s : State) (e : IoEvent) : (s.recordIo e).ioIn = s.ioIn := rfl
@[simp] theorem State.recordIo_draws (s : State) (e : IoEvent) : (s.recordIo e).draws = s.draws + 1 := rfl

@[simp] theorem State.recordIo_readReg (s : State) (e : IoEvent) (q : RegAddr) : (s.recordIo e).readReg q = s.readReg q := rfl
@[simp] theorem State.recordIo_isNptr (s : State) (e : IoEvent) (q : RegAddr) : (s.recordIo e).isNptr q = s.isNptr q := rfl

/-! ## `State.dropAnswer` -/

@[simp] theorem State.dropAnswer_regs (s : State) : (s.dropAnswer).regs = s.regs := rfl
@[simp] theorem State.dropAnswer_pc (s : State) : (s.dropAnswer).pc = s.pc := rfl
@[simp] theorem State.dropAnswer_mem (s : State) : (s.dropAnswer).mem = s.mem := rfl
@[simp] theorem State.dropAnswer_iotrace (s : State) : (s.dropAnswer).iotrace = s.iotrace := rfl
@[simp] theorem State.dropAnswer_status (s : State) : (s.dropAnswer).status = s.status := rfl
@[simp] theorem State.dropAnswer_prog (s : State) : (s.dropAnswer).prog = s.prog := rfl
@[simp] theorem State.dropAnswer_cfg (s : State) : (s.dropAnswer).cfg = s.cfg := rfl
@[simp] theorem State.dropAnswer_ioIn (s : State) : (s.dropAnswer).ioIn = s.ioIn.tail := rfl
@[simp] theorem State.dropAnswer_draws (s : State) : (s.dropAnswer).draws = s.draws := rfl

@[simp] theorem State.dropAnswer_readReg (s : State) (q : RegAddr) : (s.dropAnswer).readReg q = s.readReg q := rfl
@[simp] theorem State.dropAnswer_isNptr (s : State) (q : RegAddr) : (s.dropAnswer).isNptr q = s.isNptr q := rfl

/-! ## `State.halt` -/

@[simp] theorem State.halt_regs (s : State) : (s.halt).regs = s.regs := rfl
@[simp] theorem State.halt_pc (s : State) : (s.halt).pc = s.pc := rfl
@[simp] theorem State.halt_mem (s : State) : (s.halt).mem = s.mem := rfl
@[simp] theorem State.halt_iotrace (s : State) : (s.halt).iotrace = s.iotrace := rfl
@[simp] theorem State.halt_status (s : State) : (s.halt).status = .halted := rfl
@[simp] theorem State.halt_prog (s : State) : (s.halt).prog = s.prog := rfl
@[simp] theorem State.halt_cfg (s : State) : (s.halt).cfg = s.cfg := rfl
@[simp] theorem State.halt_ioIn (s : State) : (s.halt).ioIn = s.ioIn := rfl
@[simp] theorem State.halt_draws (s : State) : (s.halt).draws = s.draws := rfl

@[simp] theorem State.halt_readReg (s : State) (q : RegAddr) : (s.halt).readReg q = s.readReg q := rfl
@[simp] theorem State.halt_isNptr (s : State) (q : RegAddr) : (s.halt).isNptr q = s.isNptr q := rfl

/-! ## `State.faultedBy` -/

@[simp] theorem State.faultedBy_regs (s : State) (f : Fault) : (s.faultedBy f).regs = s.regs := rfl
@[simp] theorem State.faultedBy_pc (s : State) (f : Fault) : (s.faultedBy f).pc = s.pc := rfl
@[simp] theorem State.faultedBy_mem (s : State) (f : Fault) : (s.faultedBy f).mem = s.mem := rfl
@[simp] theorem State.faultedBy_iotrace (s : State) (f : Fault) : (s.faultedBy f).iotrace = s.iotrace := rfl
@[simp] theorem State.faultedBy_status (s : State) (f : Fault) : (s.faultedBy f).status = .faulted f := rfl
@[simp] theorem State.faultedBy_prog (s : State) (f : Fault) : (s.faultedBy f).prog = s.prog := rfl
@[simp] theorem State.faultedBy_cfg (s : State) (f : Fault) : (s.faultedBy f).cfg = s.cfg := rfl
@[simp] theorem State.faultedBy_ioIn (s : State) (f : Fault) : (s.faultedBy f).ioIn = s.ioIn := rfl
@[simp] theorem State.faultedBy_draws (s : State) (f : Fault) : (s.faultedBy f).draws = s.draws := rfl

@[simp] theorem State.faultedBy_readReg (s : State) (f : Fault) (q : RegAddr) : (s.faultedBy f).readReg q = s.readReg q := rfl
@[simp] theorem State.faultedBy_isNptr (s : State) (f : Fault) (q : RegAddr) : (s.faultedBy f).isNptr q = s.isNptr q := rfl

/-! ## `State.setReg` -/

@[simp] theorem State.setReg_regs (s : State) (r : RegAddr) (v : Word) : (s.setReg r v).regs = s.regs.set r.toNat v := rfl
@[simp] theorem State.setReg_pc (s : State) (r : RegAddr) (v : Word) : (s.setReg r v).pc = s.pc := rfl
@[simp] theorem State.setReg_mem (s : State) (r : RegAddr) (v : Word) : (s.setReg r v).mem = s.mem := rfl
@[simp] theorem State.setReg_iotrace (s : State) (r : RegAddr) (v : Word) : (s.setReg r v).iotrace = s.iotrace := rfl
@[simp] theorem State.setReg_status (s : State) (r : RegAddr) (v : Word) : (s.setReg r v).status = s.status := rfl
@[simp] theorem State.setReg_prog (s : State) (r : RegAddr) (v : Word) : (s.setReg r v).prog = s.prog := rfl
@[simp] theorem State.setReg_cfg (s : State) (r : RegAddr) (v : Word) : (s.setReg r v).cfg = s.cfg := rfl
@[simp] theorem State.setReg_ioIn (s : State) (r : RegAddr) (v : Word) : (s.setReg r v).ioIn = s.ioIn := rfl
@[simp] theorem State.setReg_draws (s : State) (r : RegAddr) (v : Word) : (s.setReg r v).draws = s.draws := rfl
@[simp] theorem State.setReg_isNptr (s : State) (r : RegAddr) (v : Word) (q : RegAddr) : (s.setReg r v).isNptr q = s.isNptr q := rfl

/-! ## `State.writeReg` -/

@[simp] theorem State.writeReg_pc (s : State) (r : RegAddr) (v : Word) : (s.writeReg r v).pc = s.pc := by
  unfold State.writeReg; split <;> rfl

@[simp] theorem State.writeReg_mem (s : State) (r : RegAddr) (v : Word) : (s.writeReg r v).mem = s.mem := by
  unfold State.writeReg; split <;> rfl

@[simp] theorem State.writeReg_iotrace (s : State) (r : RegAddr) (v : Word) : (s.writeReg r v).iotrace = s.iotrace := by
  unfold State.writeReg; split <;> rfl

@[simp] theorem State.writeReg_status (s : State) (r : RegAddr) (v : Word) : (s.writeReg r v).status = s.status := by
  unfold State.writeReg; split <;> rfl

@[simp] theorem State.writeReg_prog (s : State) (r : RegAddr) (v : Word) : (s.writeReg r v).prog = s.prog := by
  unfold State.writeReg; split <;> rfl

@[simp] theorem State.writeReg_cfg (s : State) (r : RegAddr) (v : Word) : (s.writeReg r v).cfg = s.cfg := by
  unfold State.writeReg; split <;> rfl

@[simp] theorem State.writeReg_ioIn (s : State) (r : RegAddr) (v : Word) : (s.writeReg r v).ioIn = s.ioIn := by
  unfold State.writeReg; split <;> rfl

@[simp] theorem State.writeReg_draws (s : State) (r : RegAddr) (v : Word) : (s.writeReg r v).draws = s.draws := by
  unfold State.writeReg; split <;> rfl

@[simp] theorem State.writeReg_isNptr (s : State) (r : RegAddr) (v : Word) (q : RegAddr) :
    (s.writeReg r v).isNptr q = s.isNptr q := by
  simp [State.isNptr]

/-- What the registers read as after a register write: `nptr` still reads 0, the register written reads the
value, every other reads as before (R10, R22). -/
theorem State.readReg_writeReg (s : State) (r q : RegAddr) (v : Word) :
    (s.writeReg r v).readReg q = if s.isNptr q then 0 else if q = r then v else s.readReg q := by
  by_cases hq : s.isNptr q = true
  · simp [State.readReg, hq]
  · by_cases hr : s.isNptr r = true
    · have hne : q ≠ r := fun h => hq (h ▸ hr)
      simp [State.readReg, State.writeReg, hq, hr, hne]
    · have hidx : r.toNat = q.toNat ↔ q = r := by
        rw [BitVec.toNat_eq]; exact eq_comm
      simp [State.readReg, State.writeReg, hq, hr, Vector.getElem_set, hidx]

/-- Reading the register just written. -/
theorem State.readReg_writeReg_same (s : State) (r : RegAddr) (v : Word) :
    (s.writeReg r v).readReg r = if s.isNptr r then 0 else v := by
  simp [State.readReg_writeReg]

/-- Reading another register than the one written. -/
theorem State.readReg_writeReg_ne (s : State) {r q : RegAddr} (h : q ≠ r) (v : Word) :
    (s.writeReg r v).readReg q = s.readReg q := by
  rw [State.readReg_writeReg]
  by_cases hq : s.isNptr q = true
  · simp [State.readReg, hq]
  · simp [hq, h]

/-- `nptr` reads 0 (R22). -/
theorem State.readReg_of_isNptr {s : State} {q : RegAddr} (h : s.isNptr q = true) : s.readReg q = 0 := by
  simp [State.readReg, h]

end Sys2Proof.Machine
end

