-- ==== Sys2Proof/Laws/Ops.lean ====
section
/-!
SUPPORT. For each shared operation, once, everything it can do: the provers cite these instead of unfolding it.
-/

namespace Sys2Proof.Machine

/-! ## Faults and checks -/

@[simp] theorem raise_ne_next (f : Fault) (t : State) : raise f ≠ .next t := by simp [raise]

@[simp] theorem raise_eq_fault (f g : Fault) : raise f = .fault g ↔ f = g := by simp [raise]

@[simp] theorem raise_ne_refused (f : Fault) (r : Refusal) : raise f ≠ .refused r := by simp [raise]

/-- Two next states are equal as answers exactly if they are equal. -/
theorem next_eq_next {s t : State} : (.next s : Result) = .next t ↔ t = s :=
  ⟨fun h => by cases h; rfl, fun h => by rw [h]⟩

/-- `orRaise` goes on exactly with a value. -/
theorem orRaise_eq_next {α : Type} {x : Except Fault α} {k : α → Result} {t : State} :
    orRaise x k = .next t ↔ ∃ v, x = .ok v ∧ k v = .next t := by
  cases x <;> simp [orRaise]

/-- `orRaise` faults with the fault it finds, or goes on and faults later. -/
theorem orRaise_eq_fault {α : Type} {x : Except Fault α} {k : α → Result} {f : Fault} :
    orRaise x k = .fault f ↔ x = .error f ∨ ∃ v, x = .ok v ∧ k v = .fault f := by
  cases x <;> simp [orRaise]

/-- `orRaise` is refused only where what follows is. -/
theorem orRaise_eq_refused {α : Type} {x : Except Fault α} {k : α → Result} {r : Refusal} :
    orRaise x k = .refused r ↔ ∃ v, x = .ok v ∧ k v = .refused r := by
  cases x <;> simp [orRaise]

/-- The check passes if every field is valid. -/
theorem checkRegs_of_valid {s : State} {fields : List RegAddr} (k : Result)
    (h : ∀ r ∈ fields, s.cfg.validReg r = true) : checkRegs s fields k = k := by
  have : (fields.find? fun r => !s.cfg.validReg r) = none :=
    List.find?_eq_none.2 fun r hr => by simp [h r hr]
  rw [checkRegs, this]

/-- The check raises `RegisterOutOfRange` for the first field that is not valid. -/
theorem checkRegs_of_find {s : State} {fields : List RegAddr} {k : Result} {r : RegAddr}
    (h : (fields.find? fun r => !s.cfg.validReg r) = some r) :
    checkRegs s fields k = .fault (.registerOutOfRange r) := by
  rw [checkRegs, h]; rfl

/-- What the check can answer: it passes, or it raises for the first invalid field. -/
theorem checkRegs_cases (s : State) (fields : List RegAddr) (k : Result) :
    ((∀ r ∈ fields, s.cfg.validReg r = true) ∧ checkRegs s fields k = k) ∨
    (∃ r, (fields.find? fun r => !s.cfg.validReg r) = some r ∧ r ∈ fields ∧ s.cfg.validReg r = false ∧
      checkRegs s fields k = .fault (.registerOutOfRange r)) := by
  cases h : fields.find? fun r => !s.cfg.validReg r with
  | none =>
    have hv : ∀ r ∈ fields, s.cfg.validReg r = true := fun r hr => by
      simpa using List.find?_eq_none.1 h r hr
    exact .inl ⟨hv, checkRegs_of_valid k hv⟩
  | some r =>
    refine .inr ⟨r, rfl, List.mem_of_find?_eq_some h, ?_, checkRegs_of_find h⟩
    simpa using List.find?_some h

/-- A next state comes through the check only with every field valid. -/
theorem checkRegs_eq_next {s t : State} {fields : List RegAddr} {k : Result} :
    checkRegs s fields k = .next t ↔ (∀ r ∈ fields, s.cfg.validReg r = true) ∧ k = .next t := by
  rcases checkRegs_cases s fields k with ⟨hv, he⟩ | ⟨r, _, hm, hf, he⟩
  · rw [he]; exact ⟨fun h => ⟨hv, h⟩, fun h => h.2⟩
  · rw [he]
    constructor
    · intro h; cases h
    · rintro ⟨hv, _⟩; rw [hv r hm] at hf; cases hf

/-- A fault through the check is the check's own or what follows raises it. -/
theorem checkRegs_eq_fault {s : State} {fields : List RegAddr} {k : Result} {f : Fault}
    (h : checkRegs s fields k = .fault f) :
    (∃ r ∈ fields, s.cfg.validReg r = false ∧ f = .registerOutOfRange r) ∨
    ((∀ r ∈ fields, s.cfg.validReg r = true) ∧ k = .fault f) := by
  rcases checkRegs_cases s fields k with ⟨hv, he⟩ | ⟨r, _, hm, hf, he⟩
  · exact .inr ⟨hv, he ▸ h⟩
  · rw [he] at h; cases h; exact .inl ⟨r, hm, hf, rfl⟩

/-- The check itself refuses nothing. -/
theorem checkRegs_eq_refused {s : State} {fields : List RegAddr} {k : Result} {r : Refusal}
    (h : checkRegs s fields k = .refused r) : k = .refused r := by
  rcases checkRegs_cases s fields k with ⟨_, he⟩ | ⟨_, _, _, _, he⟩
  · exact he ▸ h
  · rw [he] at h; cases h

/-! ## Data memory -/

@[simp] theorem State.setMem_byteAt (s : State) (m : Memory) (k : Nat) :
    (s.setMem m).byteAt k = m.readByte s.cfg.memFill k := rfl

@[simp] theorem State.setPc_byteAt (s : State) (v : Word) (k : Nat) : (s.setPc v).byteAt k = s.byteAt k := rfl

@[simp] theorem State.advance_byteAt (s : State) (k : Nat) : s.advance.byteAt k = s.byteAt k := rfl

@[simp] theorem State.writeReg_byteAt (s : State) (r : RegAddr) (v : Word) (k : Nat) :
    (s.writeReg r v).byteAt k = s.byteAt k := by simp [State.byteAt]

@[simp] theorem State.recordIo_byteAt (s : State) (e : IoEvent) (k : Nat) : (s.recordIo e).byteAt k = s.byteAt k := rfl

@[simp] theorem State.dropAnswer_byteAt (s : State) (k : Nat) : s.dropAnswer.byteAt k = s.byteAt k := rfl

@[simp] theorem State.setMem_wordAt (s : State) (m : Memory) (a : Word) :
    (s.setMem m).wordAt a = m.readWord s.cfg.memFill a.toNat := rfl

@[simp] theorem State.setPc_wordAt (s : State) (v a : Word) : (s.setPc v).wordAt a = s.wordAt a := rfl

@[simp] theorem State.advance_wordAt (s : State) (a : Word) : s.advance.wordAt a = s.wordAt a := rfl

@[simp] theorem State.writeReg_wordAt (s : State) (r : RegAddr) (v a : Word) :
    (s.writeReg r v).wordAt a = s.wordAt a := by simp [State.wordAt]

/-- What `MemRead` can answer (R12, R203): the bound is checked before the word. -/
theorem State.memRead_cases (s : State) (a : Word) :
    (s.cfg.memWords ≤ a.toNat ∧ s.memRead a = .error (.memOutOfRange a)) ∨
    (a.toNat < s.cfg.memWords ∧ s.wordAt a = none ∧ s.memRead a = .error (.uninitRead a)) ∨
    (∃ v, a.toNat < s.cfg.memWords ∧ s.wordAt a = some v ∧ s.memRead a = .ok v) := by
  unfold State.memRead State.wordAt
  by_cases h : s.cfg.memWords ≤ a.toNat
  · exact .inl ⟨h, if_pos h⟩
  · rw [if_neg h]
    cases hw : s.mem.readWord s.cfg.memFill a.toNat with
    | none => exact .inr (.inl ⟨by omega, rfl, rfl⟩)
    | some v => exact .inr (.inr ⟨v, by omega, rfl, rfl⟩)

/-- `MemRead` answers a word exactly if the address is in range and the word holds a value. -/
theorem State.memRead_eq_ok {s : State} {a v : Word} :
    s.memRead a = .ok v ↔ a.toNat < s.cfg.memWords ∧ s.wordAt a = some v := by
  rcases s.memRead_cases a with ⟨h, e⟩ | ⟨h, hw, e⟩ | ⟨u, h, hw, e⟩ <;> rw [e]
  · simp [show ¬ a.toNat < s.cfg.memWords by omega]
  · simp [hw]
  · simp [h, hw]

/-- What `MemWrite` can answer. -/
theorem State.memWrite_cases (s : State) (a v : Word) :
    (s.cfg.memWords ≤ a.toNat ∧ s.memWrite a v = .error (.memOutOfRange a)) ∨
    (a.toNat < s.cfg.memWords ∧ s.memWrite a v = .ok (s.setMem (s.mem.writeWord s.cfg.memFill a.toNat v))) := by
  unfold State.memWrite
  by_cases h : s.cfg.memWords ≤ a.toNat
  · exact .inl ⟨h, if_pos h⟩
  · exact .inr ⟨by omega, if_neg h⟩

/-- `MemWrite` goes on exactly if the address is in range. -/
theorem State.memWrite_eq_ok {s t : State} {a v : Word} :
    s.memWrite a v = .ok t ↔
      a.toNat < s.cfg.memWords ∧ t = s.setMem (s.mem.writeWord s.cfg.memFill a.toNat v) := by
  rcases s.memWrite_cases a v with ⟨h, e⟩ | ⟨h, e⟩ <;> rw [e]
  · simp [show ¬ a.toNat < s.cfg.memWords by omega]
  · simp [h, eq_comm]

/-- A stored word is the one that reads back. -/
theorem State.wordAt_writeWord (s : State) (a v : Word) :
    (s.setMem (s.mem.writeWord s.cfg.memFill a.toNat v)).wordAt a = some v := by
  simp [Memory.readWord_writeWord_same]

/-- A store changes no byte outside its word. -/
theorem State.byteAt_writeWord_outside (s : State) (a v : Word) {k : Nat}
    (h : k < 8 * a.toNat ∨ 8 * a.toNat + 8 ≤ k) :
    (s.setMem (s.mem.writeWord s.cfg.memFill a.toNat v)).byteAt k = s.byteAt k := by
  rw [State.setMem_byteAt, Memory.readByte_writeWord, if_neg (by omega)]; rfl

/-! ## IO ports -/

/-- What `IORead` can answer (R13, R31). -/
theorem State.ioRead_cases (s : State) (dev : Word) :
    (s.cfg.devices.answers dev = false ∧ s.ioRead dev = .error (.noDevice dev)) ∨
    (s.cfg.devices.answers dev = true ∧ s.ioRead dev = .ok (s.nextAnswer dev,
      (s.recordIo (.read dev (s.nextAnswer dev).word (s.nextAnswer dev).ctrl)).dropAnswer)) := by
  unfold State.ioRead
  cases h : s.cfg.devices.answers dev <;> simp

/-- What `IOWrite` can answer (R13, R31). -/
theorem State.ioWrite_cases (s : State) (dev v : Word) (c : Bit) :
    (s.cfg.devices.answers dev = false ∧ s.ioWrite dev v c = .error (.noDevice dev)) ∨
    (s.cfg.devices.answers dev = true ∧ s.ioWrite dev v c = .ok (s.recordIo (.write dev v c))) := by
  unfold State.ioWrite
  cases h : s.cfg.devices.answers dev <;> simp

/-- What an IO read's two register writes leave in the registers (R165). -/
theorem State.readReg_writePair (s : State) (r q : RegAddr) (a : IoAnswer) (b : Bool) (p : RegAddr) :
    (s.writePair r q a b).readReg p =
      if s.isNptr p then 0
      else if r = q then (if p = r then (if b then a.word else a.ctrl.setWidth 64) else s.readReg p)
      else if p = q then a.ctrl.setWidth 64
      else if p = r then a.word
      else s.readReg p := by
  unfold State.writePair
  by_cases h : r = q
  · simp only [h, if_true, State.readReg_writeReg]
  · simp only [h, if_false, State.readReg_writeReg, State.writeReg_isNptr]
    by_cases hp : s.isNptr p = true <;> simp [hp]

/-- An IO read's register writes touch nothing but the register file. -/
theorem State.writePair_fields (s : State) (r q : RegAddr) (a : IoAnswer) (b : Bool) :
    (s.writePair r q a b).pc = s.pc ∧ (s.writePair r q a b).mem = s.mem ∧
    (s.writePair r q a b).iotrace = s.iotrace ∧ (s.writePair r q a b).status = s.status ∧
    (s.writePair r q a b).prog = s.prog ∧ (s.writePair r q a b).cfg = s.cfg ∧
    (s.writePair r q a b).ioIn = s.ioIn ∧ (s.writePair r q a b).draws = s.draws := by
  unfold State.writePair; split <;> simp

/-! ## The function stack -/

/-- What a push can answer. -/
theorem State.push_cases (s : State) (v : Word) :
    (s.cfg.memWords ≤ s.pushAddr.toNat ∧ s.push v = .error (.memOutOfRange s.pushAddr)) ∨
    (s.pushAddr.toNat < s.cfg.memWords ∧ s.push v =
      .ok ((s.setMem (s.mem.writeWord s.cfg.memFill s.pushAddr.toNat v)).writeReg s.cfg.regSp s.pushedSp)) := by
  unfold State.push
  rcases s.memWrite_cases s.pushAddr v with ⟨h, e⟩ | ⟨h, e⟩ <;> rw [e]
  · exact .inl ⟨h, rfl⟩
  · exact .inr ⟨h, rfl⟩

/-- What a pop can answer. -/
theorem State.pop_cases (s : State) :
    (s.cfg.memWords ≤ s.popAddr.toNat ∧ s.pop = .error (.memOutOfRange s.popAddr)) ∨
    (s.popAddr.toNat < s.cfg.memWords ∧ s.wordAt s.popAddr = none ∧ s.pop = .error (.uninitRead s.popAddr)) ∨
    (∃ v, s.popAddr.toNat < s.cfg.memWords ∧ s.wordAt s.popAddr = some v ∧
      s.pop = .ok (v, s.writeReg s.cfg.regSp s.poppedSp)) := by
  unfold State.pop
  rcases s.memRead_cases s.popAddr with ⟨h, e⟩ | ⟨h, hw, e⟩ | ⟨v, h, hw, e⟩ <;> rw [e]
  · exact .inl ⟨h, rfl⟩
  · exact .inr (.inl ⟨h, hw, rfl⟩)
  · exact .inr (.inr ⟨v, h, hw, rfl⟩)

/-! ## The shapes of the families: each with the next state it gives -/

/-- A register-form ALU instruction gives a next state exactly if its three fields are valid. -/
theorem aluReg_eq_next {f : Word → Word → Word} {r q d : RegAddr} {s t : State} :
    aluReg f r q d s = .next t ↔ (∀ x ∈ [r, q, d], s.cfg.validReg x = true) ∧
      t = (s.writeReg d (f (s.readReg r) (s.readReg q))).advance := by
  rw [aluReg, checkRegs_eq_next, next_eq_next, aluWrite]

/-- An immediate-form ALU instruction gives a next state exactly if its two fields are valid. -/
theorem aluImm_eq_next {f : Word → Word → Word} {r d : RegAddr} {imm : BitVec 32} {s t : State} :
    aluImm f r imm d s = .next t ↔ (∀ x ∈ [r, d], s.cfg.validReg x = true) ∧
      t = (s.writeReg d (f (s.readReg r) (s.immOperand imm))).advance := by
  rw [aluImm, checkRegs_eq_next, next_eq_next, aluWrite]

/-- A shift or rotate by a register gives a next state exactly if its three fields are valid. -/
theorem shiftReg_eq_next {f : Word → BitVec 8 → Word} {r q d : RegAddr} {s t : State} :
    shiftReg f r q d s = .next t ↔ (∀ x ∈ [r, q, d], s.cfg.validReg x = true) ∧
      t = (s.writeReg d (f (s.readReg r) (shiftAmount (s.readReg q)))).advance := by
  rw [shiftReg, aluReg_eq_next]

/-- A shift or rotate by an immediate gives a next state exactly if its two fields are valid. -/
theorem shiftImm_eq_next {f : Word → BitVec 8 → Word} {r d : RegAddr} {n : BitVec 8} {s t : State} :
    shiftImm f r n d s = .next t ↔ (∀ x ∈ [r, d], s.cfg.validReg x = true) ∧
      t = (s.writeReg d (f (s.readReg r) n)).advance := by
  rw [shiftImm, checkRegs_eq_next, next_eq_next, aluWrite]

/-- A register branch gives a next state exactly if its two fields are valid. -/
theorem branchReg_eq_next {cond : Word → Word → Bool} {r q : RegAddr} {d : BitVec 32} {s t : State} :
    branchReg cond r q d s = .next t ↔ (∀ x ∈ [r, q], s.cfg.validReg x = true) ∧
      t = branchTo (cond (s.readReg r) (s.readReg q)) d s := by
  rw [branchReg, checkRegs_eq_next, next_eq_next]

/-- An immediate branch gives a next state exactly if its field is valid. -/
theorem branchImm_eq_next {cond : Word → Word → Bool} {r : RegAddr} {imm : BitVec 32} {d : BitVec 16}
    {s t : State} :
    branchImm cond r imm d s = .next t ↔ (∀ x ∈ [r], s.cfg.validReg x = true) ∧
      t = branchTo (cond (s.readReg r) (s.immOperand imm)) d s := by
  rw [branchImm, checkRegs_eq_next, next_eq_next]

/-- A load gives a next state exactly if the address is in range and its word holds a value. -/
theorem loadWord_eq_next {a : Word} {r : RegAddr} {s t : State} :
    loadWord a r s = .next t ↔
      ∃ v, a.toNat < s.cfg.memWords ∧ s.wordAt a = some v ∧ t = (s.writeReg r v).advance := by
  rw [loadWord, orRaise_eq_next]; simp only [State.memRead_eq_ok, next_eq_next, and_assoc]

/-- A store gives a next state exactly if the address is in range. -/
theorem storeWord_eq_next {a : Word} {r : RegAddr} {s t : State} :
    storeWord a r s = .next t ↔ a.toNat < s.cfg.memWords ∧
      t = (s.setMem (s.mem.writeWord s.cfg.memFill a.toNat (s.readReg r))).advance := by
  rw [storeWord, orRaise_eq_next]
  rcases s.memWrite_cases a (s.readReg r) with ⟨h, e⟩ | ⟨h, e⟩
  · simp [e, show ¬ a.toNat < s.cfg.memWords by omega]
  · simpa [e, h] using eq_comm

/-- An IO read gives a next state exactly if the device answers. -/
theorem readDevice_eq_next {dev : Word} {r q : RegAddr} {s t : State} :
    readDevice dev r q s = .next t ↔ s.cfg.devices.answers dev = true ∧
      t = ((s.recordIo (.read dev (s.nextAnswer dev).word (s.nextAnswer dev).ctrl)).dropAnswer.writePair r q
        (s.nextAnswer dev) (Config.lioKeepsWord s.draws)).advance := by
  rw [readDevice, orRaise_eq_next]
  rcases s.ioRead_cases dev with ⟨h, e⟩ | ⟨h, e⟩
  · simp [e, h]
  · simpa [e, h] using eq_comm

/-- An IO write gives a next state exactly if the device answers. -/
theorem writeDevice_eq_next {dev : Word} {r : RegAddr} {s t : State} :
    writeDevice dev r s = .next t ↔ s.cfg.devices.answers dev = true ∧
      t = (s.recordIo (.write dev (s.readReg r) s.sioControl)).advance := by
  rw [writeDevice, orRaise_eq_next]
  rcases s.ioWrite_cases dev (s.readReg r) s.sioControl with ⟨h, e⟩ | ⟨h, e⟩
  · simp [e, h]
  · simpa [e, h] using eq_comm

/-- `call` gives a next state exactly if the word it pushes to is in range. -/
theorem execCall_eq_next {i : BitVec 56} {s t : State} :
    execCall i s = .next t ↔ s.pushAddr.toNat < s.cfg.memWords ∧
      t = ((s.setMem (s.mem.writeWord s.cfg.memFill s.pushAddr.toNat s.savedPc)).writeReg s.cfg.regSp
        s.pushedSp).setPc (absTarget i) := by
  rw [execCall, orRaise_eq_next]
  rcases s.push_cases s.savedPc with ⟨h, e⟩ | ⟨h, e⟩
  · simp [e, show ¬ s.pushAddr.toNat < s.cfg.memWords by omega]
  · simpa [e, h] using eq_comm

/-- `ret` gives a next state exactly if the word it pops is in range and holds a value. -/
theorem execRet_eq_next {s t : State} :
    execRet s = .next t ↔ ∃ v, s.popAddr.toNat < s.cfg.memWords ∧ s.wordAt s.popAddr = some v ∧
      t = (s.writeReg s.cfg.regSp s.poppedSp).setPc (s.returnPc v) := by
  rw [execRet, orRaise_eq_next]
  rcases s.pop_cases with ⟨h, e⟩ | ⟨h, hw, e⟩ | ⟨v, h, hw, e⟩
  · simp [e, show ¬ s.popAddr.toNat < s.cfg.memWords by omega]
  · simp [e, hw]
  · simpa [e, h, hw] using eq_comm

end Sys2Proof.Machine
end

