-- ==== Sys2Proof/Laws/Exec.lean ====
section
/-!
SUPPORT. What performing an instruction can do, said once for all of them: the seven shapes of a next state, with the
kind of instruction that gives each.
-/

namespace Sys2Proof.Machine

/-- What an instruction does to the state it gives. -/
inductive Effect (i : Instr) (s t : State) : Prop where
  /-- `jmp` and the branches (R100, R101) -/
  | jumps (target : Word) (next : t = s.setPc target) (ctl : transfersControl i = true) (dest : destRegs s.cfg i = [])
      (store : storeAddr i s = none) (io : ioDev i s = none)
  /-- the ALU instructions and the loads (R120, R161) -/
  | writes (d : RegAddr) (v : Word) (next : t = (s.writeReg d v).advance) (ctl : transfersControl i = false)
      (dest : destRegs s.cfg i = [d]) (store : storeAddr i s = none) (io : ioDev i s = none)
  /-- `sw` and `swi` (R163, R164) -/
  | stores (a v : Word) (next : t = (s.setMem (s.mem.writeWord s.cfg.memFill a.toNat v)).advance)
      (bound : a.toNat < s.cfg.memWords) (ctl : transfersControl i = false) (dest : destRegs s.cfg i = [])
      (store : storeAddr i s = some a) (io : ioDev i s = none)
  /-- `lio` and `lioi` (R165, R166) -/
  | reads (dev : Word) (r q : RegAddr) (answers : s.cfg.devices.answers dev = true)
      (next : t = ((s.recordIo (.read dev (s.nextAnswer dev).word (s.nextAnswer dev).ctrl)).dropAnswer.writePair r q
        (s.nextAnswer dev) (Config.lioKeepsWord s.draws)).advance)
      (ctl : transfersControl i = false) (dest : destRegs s.cfg i = [r, q]) (store : storeAddr i s = none)
      (io : ioDev i s = some dev) (format : i.format = .IO)
  /-- `sio` and `sioi` (R167, R168) -/
  | sends (dev : Word) (r : RegAddr) (answers : s.cfg.devices.answers dev = true)
      (next : t = (s.recordIo (.write dev (s.readReg r) s.sioControl)).advance)
      (ctl : transfersControl i = false) (dest : destRegs s.cfg i = []) (store : storeAddr i s = none)
      (io : ioDev i s = some dev) (format : i.format ≠ .IO)
  /-- `call` (R181) -/
  | calls (j : BitVec 56) (bound : s.pushAddr.toNat < s.cfg.memWords)
      (next : t = ((s.setMem (s.mem.writeWord s.cfg.memFill s.pushAddr.toNat s.savedPc)).writeReg s.cfg.regSp
        s.pushedSp).setPc (absTarget j))
      (ctl : transfersControl i = true) (dest : destRegs s.cfg i = [s.cfg.regSp])
      (store : storeAddr i s = some s.pushAddr) (io : ioDev i s = none)
  /-- `ret` (R182) -/
  | returns (v : Word) (bound : s.popAddr.toNat < s.cfg.memWords) (word : s.wordAt s.popAddr = some v)
      (next : t = (s.writeReg s.cfg.regSp s.poppedSp).setPc (s.returnPc v))
      (ctl : transfersControl i = true) (dest : destRegs s.cfg i = [s.cfg.regSp]) (store : storeAddr i s = none)
      (io : ioDev i s = none)

/-- Every next state an instruction gives has one of the seven shapes. -/
theorem exec_effect {i : Instr} {s t : State} (h : exec i s = .next t) : Effect i s t := by
  cases i <;> simp only [exec] at h
  case jmp => exact .jumps _ (next_eq_next.1 h) rfl rfl rfl rfl
  case lw =>
    obtain ⟨_, _, _, _, h⟩ := (checkRegs_eq_next.trans (and_congr_right fun _ => loadWord_eq_next)).1 h
    exact .writes _ _ h rfl rfl rfl rfl
  case lwi =>
    obtain ⟨_, _, _, _, h⟩ := (checkRegs_eq_next.trans (and_congr_right fun _ => loadWord_eq_next)).1 h
    exact .writes _ _ h rfl rfl rfl rfl
  case sw =>
    obtain ⟨_, hb, h⟩ := (checkRegs_eq_next.trans (and_congr_right fun _ => storeWord_eq_next)).1 h
    exact .stores _ _ h hb rfl rfl rfl rfl
  case swi =>
    obtain ⟨_, hb, h⟩ := (checkRegs_eq_next.trans (and_congr_right fun _ => storeWord_eq_next)).1 h
    exact .stores _ _ h hb rfl rfl rfl rfl
  case call => obtain ⟨hb, h⟩ := execCall_eq_next.1 h; exact .calls _ hb h rfl rfl rfl rfl
  case ret => obtain ⟨v, hb, hw, h⟩ := execRet_eq_next.1 h; exact .returns v hb hw h rfl rfl rfl rfl
  case lio =>
    obtain ⟨_, ha, h⟩ := (checkRegs_eq_next.trans (and_congr_right fun _ => readDevice_eq_next)).1 h
    exact .reads _ _ _ ha h rfl rfl rfl rfl rfl
  case lioi =>
    obtain ⟨_, ha, h⟩ := (checkRegs_eq_next.trans (and_congr_right fun _ => readDevice_eq_next)).1 h
    exact .reads _ _ _ ha h rfl rfl rfl rfl rfl
  case sio =>
    obtain ⟨_, ha, h⟩ := (checkRegs_eq_next.trans (and_congr_right fun _ => writeDevice_eq_next)).1 h
    exact .sends _ _ ha h rfl rfl rfl rfl (by simp [Instr.format])
  case sioi =>
    obtain ⟨_, ha, h⟩ := (checkRegs_eq_next.trans (and_congr_right fun _ => writeDevice_eq_next)).1 h
    exact .sends _ _ ha h rfl rfl rfl rfl (by simp [Instr.format])
  case beq | bneq | bl | bleq | bg | bgeq => exact .jumps _ (branchReg_eq_next.1 h).2 rfl rfl rfl rfl
  case beqi | bneqi | bli | bleqi | bgi | bgeqi => exact .jumps _ (branchImm_eq_next.1 h).2 rfl rfl rfl rfl
  case not => exact .writes _ _ (next_eq_next.1 (checkRegs_eq_next.1 h).2) rfl rfl rfl rfl
  case shr | shl | rr | rl => exact .writes _ _ (shiftReg_eq_next.1 h).2 rfl rfl rfl rfl
  case shri | shli | rri | rli => exact .writes _ _ (shiftImm_eq_next.1 h).2 rfl rfl rfl rfl
  case addi | subi | muli | andi | ori | xori | xnori | nori | ceqi | clti | cltei =>
    exact .writes _ _ (aluImm_eq_next.1 h).2 rfl rfl rfl rfl
  case add | sub | mul | and | or | xor | xnor | nor | ceq | clt | clte =>
    exact .writes _ _ (aluReg_eq_next.1 h).2 rfl rfl rfl rfl

end Sys2Proof.Machine
end

