-- ==== Sys2Proof/Laws/PerInstr.lean ====
section
/-!
SUPPORT. A fact about every instruction, one lemma per constructor: the word it is encoded as carries its opcode
in byte 1 (spec/30_encoding.md R61).
-/

namespace Sys2Proof.Laws

/-- Byte 1 of the encoded word is the instruction's opcode. -/
def OpcodeByte.Statement (i : Instr) : Prop := opField (encode i) = i.opcode

namespace OpcodeByte

theorem jmp (j : BitVec 56) : Statement (.jmp j) := opField_packJump _ _
theorem beq (r q : RegAddr) (d : BitVec 32) : Statement (.beq r q d) := opField_packBytes _ _ _ _ _
theorem bneq (r q : RegAddr) (d : BitVec 32) : Statement (.bneq r q d) := opField_packBytes _ _ _ _ _
theorem bl (r q : RegAddr) (d : BitVec 32) : Statement (.bl r q d) := opField_packBytes _ _ _ _ _
theorem bleq (r q : RegAddr) (d : BitVec 32) : Statement (.bleq r q d) := opField_packBytes _ _ _ _ _
theorem bg (r q : RegAddr) (d : BitVec 32) : Statement (.bg r q d) := opField_packBytes _ _ _ _ _
theorem bgeq (r q : RegAddr) (d : BitVec 32) : Statement (.bgeq r q d) := opField_packBytes _ _ _ _ _
theorem beqi (r : RegAddr) (v : BitVec 32) (d : BitVec 16) : Statement (.beqi r v d) := opField_packShort _ _ _ _
theorem bneqi (r : RegAddr) (v : BitVec 32) (d : BitVec 16) : Statement (.bneqi r v d) := opField_packShort _ _ _ _
theorem bli (r : RegAddr) (v : BitVec 32) (d : BitVec 16) : Statement (.bli r v d) := opField_packShort _ _ _ _
theorem bleqi (r : RegAddr) (v : BitVec 32) (d : BitVec 16) : Statement (.bleqi r v d) := opField_packShort _ _ _ _
theorem bgi (r : RegAddr) (v : BitVec 32) (d : BitVec 16) : Statement (.bgi r v d) := opField_packShort _ _ _ _
theorem bgeqi (r : RegAddr) (v : BitVec 32) (d : BitVec 16) : Statement (.bgeqi r v d) := opField_packShort _ _ _ _
theorem lw (m : RegAddr) (v : BitVec 32) (r : RegAddr) : Statement (.lw m v r) := opField_packBytes _ _ _ _ _
theorem sw (m : RegAddr) (v : BitVec 32) (r : RegAddr) : Statement (.sw m v r) := opField_packBytes _ _ _ _ _
theorem call (j : BitVec 56) : Statement (.call j) := opField_packJump _ _
theorem ret : Statement (.ret) := opField_packBytes _ _ _ _ _
theorem lio (v : BitVec 32) (r q : RegAddr) : Statement (.lio v r q) := opField_packBytes _ _ _ _ _
theorem sio (m : RegAddr) (v : BitVec 32) (r : RegAddr) : Statement (.sio m v r) := opField_packBytes _ _ _ _ _
theorem lwi (v : BitVec 32) (r : RegAddr) : Statement (.lwi v r) := opField_packBytes _ _ _ _ _
theorem swi (v : BitVec 32) (r : RegAddr) : Statement (.swi v r) := opField_packBytes _ _ _ _ _
theorem lioi (v : BitVec 32) (r q : RegAddr) : Statement (.lioi v r q) := opField_packBytes _ _ _ _ _
theorem sioi (v : BitVec 32) (r : RegAddr) : Statement (.sioi v r) := opField_packBytes _ _ _ _ _
theorem add (r q d : RegAddr) : Statement (.add r q d) := opField_packBytes _ _ _ _ _
theorem sub (r q d : RegAddr) : Statement (.sub r q d) := opField_packBytes _ _ _ _ _
theorem mul (r q d : RegAddr) : Statement (.mul r q d) := opField_packBytes _ _ _ _ _
theorem and (r q d : RegAddr) : Statement (.and r q d) := opField_packBytes _ _ _ _ _
theorem or (r q d : RegAddr) : Statement (.or r q d) := opField_packBytes _ _ _ _ _
theorem not (r d : RegAddr) : Statement (.not r d) := opField_packBytes _ _ _ _ _
theorem xor (r q d : RegAddr) : Statement (.xor r q d) := opField_packBytes _ _ _ _ _
theorem xnor (r q d : RegAddr) : Statement (.xnor r q d) := opField_packBytes _ _ _ _ _
theorem nor (r q d : RegAddr) : Statement (.nor r q d) := opField_packBytes _ _ _ _ _
theorem ceq (r q d : RegAddr) : Statement (.ceq r q d) := opField_packBytes _ _ _ _ _
theorem clt (r q d : RegAddr) : Statement (.clt r q d) := opField_packBytes _ _ _ _ _
theorem clte (r q d : RegAddr) : Statement (.clte r q d) := opField_packBytes _ _ _ _ _
theorem shr (r q d : RegAddr) : Statement (.shr r q d) := opField_packBytes _ _ _ _ _
theorem shl (r q d : RegAddr) : Statement (.shl r q d) := opField_packBytes _ _ _ _ _
theorem rr (r q d : RegAddr) : Statement (.rr r q d) := opField_packBytes _ _ _ _ _
theorem rl (r q d : RegAddr) : Statement (.rl r q d) := opField_packBytes _ _ _ _ _
theorem addi (r : RegAddr) (v : BitVec 32) (d : RegAddr) : Statement (.addi r v d) := opField_packBytes _ _ _ _ _
theorem subi (r : RegAddr) (v : BitVec 32) (d : RegAddr) : Statement (.subi r v d) := opField_packBytes _ _ _ _ _
theorem muli (r : RegAddr) (v : BitVec 32) (d : RegAddr) : Statement (.muli r v d) := opField_packBytes _ _ _ _ _
theorem andi (r : RegAddr) (v : BitVec 32) (d : RegAddr) : Statement (.andi r v d) := opField_packBytes _ _ _ _ _
theorem ori (r : RegAddr) (v : BitVec 32) (d : RegAddr) : Statement (.ori r v d) := opField_packBytes _ _ _ _ _
theorem xori (r : RegAddr) (v : BitVec 32) (d : RegAddr) : Statement (.xori r v d) := opField_packBytes _ _ _ _ _
theorem xnori (r : RegAddr) (v : BitVec 32) (d : RegAddr) : Statement (.xnori r v d) := opField_packBytes _ _ _ _ _
theorem nori (r : RegAddr) (v : BitVec 32) (d : RegAddr) : Statement (.nori r v d) := opField_packBytes _ _ _ _ _
theorem ceqi (r : RegAddr) (v : BitVec 32) (d : RegAddr) : Statement (.ceqi r v d) := opField_packBytes _ _ _ _ _
theorem clti (r : RegAddr) (v : BitVec 32) (d : RegAddr) : Statement (.clti r v d) := opField_packBytes _ _ _ _ _
theorem cltei (r : RegAddr) (v : BitVec 32) (d : RegAddr) : Statement (.cltei r v d) := opField_packBytes _ _ _ _ _
theorem shri (r : RegAddr) (n : BitVec 8) (d : RegAddr) : Statement (.shri r n d) := opField_packBytes _ _ _ _ _
theorem shli (r : RegAddr) (n : BitVec 8) (d : RegAddr) : Statement (.shli r n d) := opField_packBytes _ _ _ _ _
theorem rri (r : RegAddr) (n : BitVec 8) (d : RegAddr) : Statement (.rri r n d) := opField_packBytes _ _ _ _ _
theorem rli (r : RegAddr) (n : BitVec 8) (d : RegAddr) : Statement (.rli r n d) := opField_packBytes _ _ _ _ _

end OpcodeByte

end Sys2Proof.Laws
end

