-- ==== Sys2Proof/Tests/Slice0.lean ====
section
/-!
SUPPORT. Tests.  Every expected value is taken from spec/95_test_vectors.md or from the rule named beside it; the
machine is the spec's own (`MEM_WORDS` = 2^20, all else at the default) unless a test says otherwise.  The last part
shows, for every statement with hypotheses, a state and operands that meet them.
-/

open Sys2Proof Sys2Proof.Machine Sys2Proof.Claims

namespace Sys2Proof.Tests

/-! ## Helpers -/

/-- The parameters the test vectors use. -/
def cfg : Config := { Config.default with memWords := 0x100000 }

/-- The state after reset with another pc, some registers written and some memory words written. -/
def st (pc : Word) (regs : List (RegAddr × Word)) (mem : List (Word × Word)) : State :=
  mem.foldl (fun s x => s.setMem (s.mem.writeWord s.cfg.memFill x.1.toNat x.2))
    (regs.foldl (fun s x => s.setReg x.1 x.2) { State.reset with pc := pc, cfg := cfg })

/-- One step that fetches, decodes and performs the word `w`. -/
def run (w : Nat) (s : State) : Result := step (s.withFetchWord 64 w)

/-- A register after a step. -/
def regAfter (r : RegAddr) (x : Result) : Option Word :=
  match x with
  | .next t => some (t.readReg r)
  | _ => none

/-- The pc after a step. -/
def pcAfter (x : Result) : Option Word :=
  match x with
  | .next t => some t.pc
  | _ => none

/-- A memory word after a step. -/
def memAfter (a : Word) (x : Result) : Option Word :=
  match x with
  | .next t => t.wordAt a
  | _ => none

/-- The device numbers and words of the IO writes in the trace after a step (their control bit is a draw). -/
def sentAfter (x : Result) : Option (List (Word × Word)) :=
  match x with
  | .next t => some (t.iotrace.filterMap fun e => match e with
    | .write d v _ => some (d, v)
    | .read _ _ _ => none)
  | _ => none

/-- The IO trace after a step. -/
def traceAfter (x : Result) : Option (List IoEvent) :=
  match x with
  | .next t => some t.iotrace
  | _ => none

/-- The fault of a step. -/
def faultOf (x : Result) : Option Fault :=
  match x with
  | .fault f => some f
  | _ => none

/-- A state whose host has one answer ready for an IO read. -/
def hostAnswers (s : State) (v : Word) (c : Bit) : State := { s with ioIn := [⟨v, c⟩] }

/-- `NREG` = 16 (section 3 of the vectors), with both reserved registers inside the file. -/
def cfg16 : Config := { cfg with nreg := 16, regMem := 14, regSp := 15 }

/-! ## Well-formed instructions (R21, R80 step 4): the field of byte 2, 3 or 4 at `NREG` is refused -/

theorem test_wf_ok : (Instr.add 1 2 15).wf cfg16 = true := by decide
theorem test_wf_byte2 : (Instr.add 16 2 3).wf cfg16 = false := by decide
theorem test_wf_byte3 : (Instr.add 1 16 3).wf cfg16 = false := by decide
theorem test_wf_byte4 : (Instr.add 1 2 16).wf cfg16 = false := by decide
theorem test_wf_branch : (Instr.beqi 16 0 0).wf cfg16 = false := by decide
theorem test_wf_load_base : (Instr.lw 16 0 1).wf cfg16 = false := by decide
theorem test_wf_io : (Instr.lio 0 1 16).wf cfg16 = false := by decide
/-- `SIO_ADDR = imm`: the base field is not used, so it is not checked (log entry 14). -/
theorem test_wf_sio_base :
    (Instr.sio 16 0 1).wf cfg16 = false ∧ (Instr.sio 16 0 1).wf { cfg16 with sioAddr := .imm } = true := by decide
/-- "With `NREG = 16` the word `0x8001021000000000` raises `RegisterOutOfRange(0x10)`." -/
theorem test_register_out_of_range :
    faultOf (run 0x8001021000000000 { st 0 [] [] with cfg := cfg16 }) = some (.registerOutOfRange 0x10) := by rfl

/-! ## Decoding: the words of section 2, one per instruction, and the assembly that spells them -/

theorem test_decode_jmp : decode cfg 0x0100000000000010 = .ok (.jmp 0x10) := by rfl
theorem test_decode_beq : decode cfg 0x0201020000000005 = .ok (.beq 0x01 0x02 0x05) := by rfl
theorem test_decode_bneq : decode cfg 0x0301020000000005 = .ok (.bneq 0x01 0x02 0x05) := by rfl
theorem test_decode_bl : decode cfg 0x0401020000000005 = .ok (.bl 0x01 0x02 0x05) := by rfl
theorem test_decode_bleq : decode cfg 0x0501020000000005 = .ok (.bleq 0x01 0x02 0x05) := by rfl
theorem test_decode_bg : decode cfg 0x0603010000000004 = .ok (.bg 0x03 0x01 0x04) := by rfl
theorem test_decode_bgeq : decode cfg 0x07010200FFFFFFFE = .ok (.bgeq 0x01 0x02 0xFFFFFFFE) := by rfl
theorem test_decode_beqi : decode cfg 0x12010003000000A6 = .ok (.beqi 0x01 0xA6 0x03) := by rfl
theorem test_decode_bneqi : decode cfg 0x1302000200000000 = .ok (.bneqi 0x02 0x00 0x02) := by rfl
theorem test_decode_bli : decode cfg 0x140100040000000A = .ok (.bli 0x01 0x0A 0x04) := by rfl
theorem test_decode_bleqi : decode cfg 0x150100040000000A = .ok (.bleqi 0x01 0x0A 0x04) := by rfl
theorem test_decode_bgi : decode cfg 0x1601FFFE00000000 = .ok (.bgi 0x01 0x00 0xFFFE) := by rfl
theorem test_decode_bgeqi : decode cfg 0x170100040000000A = .ok (.bgeqi 0x01 0x0A 0x04) := by rfl
theorem test_decode_add : decode cfg 0x8001020300000000 = .ok (.add 0x01 0x02 0x03) := by rfl
theorem test_decode_addi : decode cfg 0x90000001000000A6 = .ok (.addi 0 0xA6 0x01) := by rfl
theorem test_decode_sub : decode cfg 0x8101020300000000 = .ok (.sub 0x01 0x02 0x03) := by rfl
theorem test_decode_subi : decode cfg 0x9101000100000001 = .ok (.subi 0x01 0x01 0x01) := by rfl
theorem test_decode_mul : decode cfg 0x8201020300000000 = .ok (.mul 0x01 0x02 0x03) := by rfl
theorem test_decode_muli : decode cfg 0x9203000400000003 = .ok (.muli 0x03 0x03 0x04) := by rfl
theorem test_decode_and : decode cfg 0x8301020300000000 = .ok (.and 0x01 0x02 0x03) := by rfl
theorem test_decode_andi : decode cfg 0x93010002000000FF = .ok (.andi 0x01 0xFF 0x02) := by rfl
theorem test_decode_or : decode cfg 0x8401020300000000 = .ok (.or 0x01 0x02 0x03) := by rfl
theorem test_decode_ori : decode cfg 0x940100020000000F = .ok (.ori 0x01 0x0F 0x02) := by rfl
theorem test_decode_not : decode cfg 0x8501000200000000 = .ok (.not 0x01 0x02) := by rfl
theorem test_decode_xor : decode cfg 0x8601020300000000 = .ok (.xor 0x01 0x02 0x03) := by rfl
theorem test_decode_xori : decode cfg 0x96010003000000FF = .ok (.xori 0x01 0xFF 0x03) := by rfl
theorem test_decode_xnor : decode cfg 0x8701020300000000 = .ok (.xnor 0x01 0x02 0x03) := by rfl
theorem test_decode_xnori : decode cfg 0x97010002000000FF = .ok (.xnori 0x01 0xFF 0x02) := by rfl
theorem test_decode_nor : decode cfg 0x8801020300000000 = .ok (.nor 0x01 0x02 0x03) := by rfl
theorem test_decode_nori : decode cfg 0x98010002000000F0 = .ok (.nori 0x01 0xF0 0x02) := by rfl
theorem test_decode_ceq : decode cfg 0x8901020300000000 = .ok (.ceq 0x01 0x02 0x03) := by rfl
theorem test_decode_ceqi : decode cfg 0x99010002000000A6 = .ok (.ceqi 0x01 0xA6 0x02) := by rfl
theorem test_decode_clt : decode cfg 0x8A01020300000000 = .ok (.clt 0x01 0x02 0x03) := by rfl
theorem test_decode_clti : decode cfg 0x9A0100020000000A = .ok (.clti 0x01 0x0A 0x02) := by rfl
theorem test_decode_clte : decode cfg 0x8B01020300000000 = .ok (.clte 0x01 0x02 0x03) := by rfl
theorem test_decode_cltei : decode cfg 0x9B0100020000000A = .ok (.cltei 0x01 0x0A 0x02) := by rfl
theorem test_decode_shr : decode cfg 0x8C01020300000000 = .ok (.shr 0x01 0x02 0x03) := by rfl
theorem test_decode_shri : decode cfg 0x9C01000200000004 = .ok (.shri 0x01 0x04 0x02) := by rfl
theorem test_decode_shl : decode cfg 0x8D01020300000000 = .ok (.shl 0x01 0x02 0x03) := by rfl
theorem test_decode_shli : decode cfg 0x9D04000500000004 = .ok (.shli 0x04 0x04 0x05) := by rfl
theorem test_decode_rr : decode cfg 0x8E01020300000000 = .ok (.rr 0x01 0x02 0x03) := by rfl
theorem test_decode_rri : decode cfg 0x9E01000200000008 = .ok (.rri 0x01 0x08 0x02) := by rfl
theorem test_decode_rl : decode cfg 0x8F01020300000000 = .ok (.rl 0x01 0x02 0x03) := by rfl
theorem test_decode_rli : decode cfg 0x9F01000200000008 = .ok (.rli 0x01 0x08 0x02) := by rfl
theorem test_decode_lw : decode cfg 0x40FE000200000003 = .ok (.lw 0xFE 0x03 0x02) := by rfl
theorem test_decode_lwi : decode cfg 0x5000000300000020 = .ok (.lwi 0x20 0x03) := by rfl
theorem test_decode_sw : decode cfg 0x41FE000100000003 = .ok (.sw 0xFE 0x03 0x01) := by rfl
theorem test_decode_swi : decode cfg 0x5100000200000020 = .ok (.swi 0x20 0x02) := by rfl
theorem test_decode_lio : decode cfg 0x4400010200000001 = .ok (.lio 0x01 0x01 0x02) := by rfl
theorem test_decode_lioi : decode cfg 0x5400010200000001 = .ok (.lioi 0x01 0x01 0x02) := by rfl
theorem test_decode_sio : decode cfg 0x45FE000300000002 = .ok (.sio 0xFE 0x02 0x03) := by rfl
theorem test_decode_sioi : decode cfg 0x5500000300000002 = .ok (.sioi 0x02 0x03) := by rfl
theorem test_decode_call : decode cfg 0x4200000000000005 = .ok (.call 0x5) := by rfl
theorem test_decode_ret : decode cfg 0x4300000000000000 = .ok (.ret) := by rfl

/-- The encoder writes the words of section 2 (part 1). -/
theorem test_encode_1 :
    [encode (.jmp 0x10), encode (.beq 0x01 0x02 0x05), encode (.bneq 0x01 0x02 0x05),
      encode (.bl 0x01 0x02 0x05), encode (.bleq 0x01 0x02 0x05), encode (.bg 0x03 0x01 0x04),
      encode (.bgeq 0x01 0x02 0xFFFFFFFE), encode (.beqi 0x01 0xA6 0x03), encode (.bneqi 0x02 0x00 0x02),
      encode (.bli 0x01 0x0A 0x04), encode (.bleqi 0x01 0x0A 0x04), encode (.bgi 0x01 0x00 0xFFFE),
      encode (.bgeqi 0x01 0x0A 0x04), encode (.add 0x01 0x02 0x03), encode (.addi 0 0xA6 0x01),
      encode (.sub 0x01 0x02 0x03), encode (.subi 0x01 0x01 0x01), encode (.mul 0x01 0x02 0x03)] =
    [0x0100000000000010, 0x0201020000000005, 0x0301020000000005, 0x0401020000000005, 0x0501020000000005,
      0x0603010000000004, 0x07010200FFFFFFFE, 0x12010003000000A6, 0x1302000200000000, 0x140100040000000A,
      0x150100040000000A, 0x1601FFFE00000000, 0x170100040000000A, 0x8001020300000000, 0x90000001000000A6,
      0x8101020300000000, 0x9101000100000001, 0x8201020300000000] := by decide

/-- The encoder writes the words of section 2 (part 2). -/
theorem test_encode_2 :
    [encode (.muli 0x03 0x03 0x04), encode (.and 0x01 0x02 0x03), encode (.andi 0x01 0xFF 0x02),
      encode (.or 0x01 0x02 0x03), encode (.ori 0x01 0x0F 0x02), encode (.not 0x01 0x02),
      encode (.xor 0x01 0x02 0x03), encode (.xori 0x01 0xFF 0x03), encode (.xnor 0x01 0x02 0x03),
      encode (.xnori 0x01 0xFF 0x02), encode (.nor 0x01 0x02 0x03), encode (.nori 0x01 0xF0 0x02),
      encode (.ceq 0x01 0x02 0x03), encode (.ceqi 0x01 0xA6 0x02), encode (.clt 0x01 0x02 0x03),
      encode (.clti 0x01 0x0A 0x02), encode (.clte 0x01 0x02 0x03), encode (.cltei 0x01 0x0A 0x02)] =
    [0x9203000400000003, 0x8301020300000000, 0x93010002000000FF, 0x8401020300000000, 0x940100020000000F,
      0x8501000200000000, 0x8601020300000000, 0x96010003000000FF, 0x8701020300000000, 0x97010002000000FF,
      0x8801020300000000, 0x98010002000000F0, 0x8901020300000000, 0x99010002000000A6, 0x8A01020300000000,
      0x9A0100020000000A, 0x8B01020300000000, 0x9B0100020000000A] := by decide

/-- The encoder writes the words of section 2 (part 3). -/
theorem test_encode_3 :
    [encode (.shr 0x01 0x02 0x03), encode (.shri 0x01 0x04 0x02), encode (.shl 0x01 0x02 0x03),
      encode (.shli 0x04 0x04 0x05), encode (.rr 0x01 0x02 0x03), encode (.rri 0x01 0x08 0x02),
      encode (.rl 0x01 0x02 0x03), encode (.rli 0x01 0x08 0x02), encode (.lw 0xFE 0x03 0x02),
      encode (.lwi 0x20 0x03), encode (.sw 0xFE 0x03 0x01), encode (.swi 0x20 0x02),
      encode (.lio 0x01 0x01 0x02), encode (.lioi 0x01 0x01 0x02), encode (.sio 0xFE 0x02 0x03),
      encode (.sioi 0x02 0x03), encode (.call 0x5), encode (.ret)] =
    [0x8C01020300000000, 0x9C01000200000004, 0x8D01020300000000, 0x9D04000500000004, 0x8E01020300000000,
      0x9E01000200000008, 0x8F01020300000000, 0x9F01000200000008, 0x40FE000200000003, 0x5000000300000020,
      0x41FE000100000003, 0x5100000200000020, 0x4400010200000001, 0x5400010200000001, 0x45FE000300000002,
      0x5500000300000002, 0x4200000000000005, 0x4300000000000000] := by decide

/-- The assembler writes the words of section 2 (part 1). -/
theorem test_assemble_1 :
    ["jmp 0x10", "beq 0x01,0x02,0x05", "bneq 0x01,0x02,0x05", "bl 0x01,0x02,0x05",
      "bleq 0x01,0x02,0x05", "bg 0x03,0x01,0x04", "bgeq 0x01,0x02,0xFFFFFFFE", "beqi 0x01,0xA6,0x03",
      "bneqi 0x02,0x00,0x02", "bli 0x01,0x0A,0x04", "bleqi 0x01,0x0A,0x04", "bgi 0x01,0x00,0xFFFE",
      "bgeqi 0x01,0x0A,0x04", "add 0x01,0x02,0x03", "addi nptr,0xA6,0x01", "sub 0x01,0x02,0x03",
      "subi 0x01,0x01,0x01", "mul 0x01,0x02,0x03"].map (assemble cfg) =
    [some 0x0100000000000010, some 0x0201020000000005, some 0x0301020000000005, some 0x0401020000000005,
      some 0x0501020000000005, some 0x0603010000000004, some 0x07010200FFFFFFFE, some 0x12010003000000A6,
      some 0x1302000200000000, some 0x140100040000000A, some 0x150100040000000A, some 0x1601FFFE00000000,
      some 0x170100040000000A, some 0x8001020300000000, some 0x90000001000000A6, some 0x8101020300000000,
      some 0x9101000100000001, some 0x8201020300000000] := by decide +kernel

/-- The assembler writes the words of section 2 (part 2). -/
theorem test_assemble_2 :
    ["muli 0x03,0x03,0x04", "and 0x01,0x02,0x03", "andi 0x01,0xFF,0x02", "or 0x01,0x02,0x03",
      "ori 0x01,0x0F,0x02", "not 0x01,0x02", "xor 0x01,0x02,0x03", "xori 0x01,0xFF,0x03",
      "xnor 0x01,0x02,0x03", "xnori 0x01,0xFF,0x02", "nor 0x01,0x02,0x03", "nori 0x01,0xF0,0x02",
      "ceq 0x01,0x02,0x03", "ceqi 0x01,0xA6,0x02", "clt 0x01,0x02,0x03", "clti 0x01,0x0A,0x02",
      "clte 0x01,0x02,0x03", "cltei 0x01,0x0A,0x02"].map (assemble cfg) =
    [some 0x9203000400000003, some 0x8301020300000000, some 0x93010002000000FF, some 0x8401020300000000,
      some 0x940100020000000F, some 0x8501000200000000, some 0x8601020300000000, some 0x96010003000000FF,
      some 0x8701020300000000, some 0x97010002000000FF, some 0x8801020300000000, some 0x98010002000000F0,
      some 0x8901020300000000, some 0x99010002000000A6, some 0x8A01020300000000, some 0x9A0100020000000A,
      some 0x8B01020300000000, some 0x9B0100020000000A] := by decide +kernel

/-- The assembler writes the words of section 2 (part 3). -/
theorem test_assemble_3 :
    ["shr 0x01,0x02,0x03", "shri 0x01,0x04,0x02", "shl 0x01,0x02,0x03", "shli 0x04,0x04,0x05",
      "rr 0x01,0x02,0x03", "rri 0x01,0x08,0x02", "rl 0x01,0x02,0x03", "rli 0x01,0x08,0x02",
      "lw 0x03,0x02", "lwi 0x20,0x03", "sw 0x03,0x01", "swi 0x20,0x02",
      "lio 0x01,0x01,0x02", "lioi 0x01,0x01,0x02", "sio 0x02,0x03", "sioi 0x02,0x03",
      "call 0x5", "ret"].map (assemble cfg) =
    [some 0x8C01020300000000, some 0x9C01000200000004, some 0x8D01020300000000, some 0x9D04000500000004,
      some 0x8E01020300000000, some 0x9E01000200000008, some 0x8F01020300000000, some 0x9F01000200000008,
      some 0x40FE000200000003, some 0x5000000300000020, some 0x41FE000100000003, some 0x5100000200000020,
      some 0x4400010200000001, some 0x5400010200000001, some 0x45FE000300000002, some 0x5500000300000002,
      some 0x4200000000000005, some 0x4300000000000000] := by decide +kernel

/-- What is not assembly (R81): a decimal immediate, a missing operand, an unknown mnemonic, a value wider
than its field. -/
theorem test_assemble_refused :
    ["addi nptr,166,0x01", "add 0x01,0x02", "noti 0x01,0x02", "addi nptr,0x100000000,0x01", "beqi 0x01,0x00,0x10000"].map
      (assemble cfg) = [none, none, none, none, none] := by decide +kernel

/-! ## Decode vectors of section 3 -/

/-- Words whose opcode is undefined. -/
theorem test_decode_illegal :
    [0x0000000000000000, 0x1100000000000010, 0x9501000200000000, 0x5200000000000005, 0x5300000000000000,
      0x0800000000000000, 0x4600000000000000, 0xA001020300000000, 0xFFFFFFFFFFFFFFFF].all
      (fun w => decode cfg w == .error (.illegalInstruction w)) = true := by decide +kernel

/-- Words with a documented-zero bit set: refused under strict decoding, and only there. -/
theorem test_decode_reserved :
    [0x8001020300000001, 0x8501FF0200000000, 0x0201020100000005, 0x9001FF02000000A6, 0x9C01010200000004,
      0x40FE010200000003, 0x50FE000300000020, 0x4401010200000001, 0x4300000000000001, 0x4301000000000000].all
      (fun w => decode cfg w == .error (.reservedEncoding w) &&
        (decode { cfg with strictDecode := false } w).isOk) = true := by decide +kernel

/-- Without strict decoding the offending bits are ignored. -/
theorem test_decode_not_strict :
    decode { cfg with strictDecode := false } 0x8501FF0200000000 = .ok (.not 0x01 0x02) := by rfl
/-- Bits 31..8 of a shift amount are ignored (R69). -/
theorem test_decode_shift_ignored : decode cfg 0x9C01000212345604 = .ok (.shri 0x01 0x04 0x02) := by rfl
/-- Any register may be the base (R161). -/
theorem test_decode_other_base : decode cfg 0x4007000200000003 = .ok (.lw 0x07 0x03 0x02) := by rfl
theorem test_decode_widest_jump : decode cfg 0x01FFFFFFFFFFFFFF = .ok (.jmp 0xFFFFFFFFFFFFFF) := by rfl
theorem test_decode_table_word : decodeTableWord 64 0x12010003000000A6 = some (.beqi 0x01 0xA6 0x03) := by rfl
theorem test_decode_table_word_refused : decodeTableWord 64 0x1100000000000010 = none := by rfl
/-- The first instruction after reset is the one that stands in the program. -/
theorem test_with_fetch_word :
    step (State.reset.withFetchWord 64 0x90000001000000A6) =
      exec (.addi 0x00 0xA6 0x01) (State.reset.withFetchWord 64 0x90000001000000A6) := by rfl

/-! ## Jumps and branches (section 4 and the examples of R101 to R114) -/

theorem test_jmp : pcAfter (run 0x0100000000000010 (st 3 [] [])) = some 0x10 := by rfl
theorem test_jmp_widest : pcAfter (run 0x01FFFFFFFFFFFFFF (st 3 [] [])) = some 0xFFFFFFFFFFFFFF := by rfl
theorem test_beq_back : pcAfter (run 0x02010200FFFFFFFF (st 16 [(1, 5), (2, 5)] [])) = some 0xF := by rfl
theorem test_beq_falls_through : pcAfter (run 0x0201030000000005 (st 16 [(1, 5), (3, 7)] [])) = some 0x11 := by rfl
theorem test_bneq_taken : pcAfter (run 0x0301020000000005 (st 32 [(1, 7), (2, 8)] [])) = some 0x25 := by rfl
theorem test_bneq_falls_through : pcAfter (run 0x0301020000000005 (st 32 [(1, 7), (2, 7)] [])) = some 0x21 := by rfl
theorem test_bl_signed :
    pcAfter (run 0x0401020000000005 (st 32 [(1, 0xFFFFFFFFFFFFFFFF), (2, 0)] [])) = some 0x25 := by rfl
theorem test_bl_falls_through : pcAfter (run 0x0401020000000005 (st 32 [(1, 5), (2, 5)] [])) = some 0x21 := by rfl
theorem test_bleq_taken : pcAfter (run 0x0501020000000005 (st 32 [(1, 3), (2, 3)] [])) = some 0x25 := by rfl
theorem test_bleq_falls_through :
    pcAfter (run 0x0501020000000005 (st 32 [(1, 0x7FFFFFFFFFFFFFFF), (2, 0x8000000000000000)] [])) = some 0x21 := by rfl
theorem test_bg_taken : pcAfter (run 0x0603010000000004 (st 3 [(3, 11), (1, 10)] [])) = some 7 := by rfl
theorem test_bg_falls_through : pcAfter (run 0x0603010000000004 (st 3 [(3, 10), (1, 10)] [])) = some 4 := by rfl
theorem test_bgeq_signed :
    pcAfter (run 0x0701020000000005 (st 32 [(1, 0), (2, 0x8000000000000000)] [])) = some 0x25 := by rfl
theorem test_bgeq_falls_through :
    pcAfter (run 0x0701020000000005 (st 32 [(1, 0xFFFFFFFFFFFFFFFF), (2, 1)] [])) = some 0x21 := by rfl
theorem test_beqi_farthest : pcAfter (run 0x12017FFF00000005 (st 16 [(1, 5)] [])) = some 0x800F := by rfl
theorem test_beqi_falls_through : pcAfter (run 0x1201000300000006 (st 16 [(1, 5)] [])) = some 0x11 := by rfl
theorem test_bneqi_taken : pcAfter (run 0x1302000200000000 (st 1 [(2, 1)] [])) = some 3 := by rfl
theorem test_bneqi_falls_through : pcAfter (run 0x1301000300000005 (st 16 [(1, 5)] [])) = some 0x11 := by rfl
theorem test_bli_signed : pcAfter (run 0x140100040000000A (st 8 [(1, 0xFFFFFFFFFFFFFFFF)] [])) = some 12 := by rfl
theorem test_bli_falls_through : pcAfter (run 0x140100040000000A (st 8 [(1, 10)] [])) = some 9 := by rfl
theorem test_bleqi_taken : pcAfter (run 0x150100040000000A (st 8 [(1, 10)] [])) = some 12 := by rfl
theorem test_bleqi_falls_through : pcAfter (run 0x150100040000000A (st 8 [(1, 11)] [])) = some 9 := by rfl
theorem test_bgi_back : pcAfter (run 0x1601FFFE00000000 (st 4 [(1, 5)] [])) = some 2 := by rfl
theorem test_bgi_falls_through : pcAfter (run 0x160100040000000A (st 8 [(1, 0xFFFFFFFFFFFFFFFF)] [])) = some 9 := by rfl
theorem test_bgeqi_taken : pcAfter (run 0x170100040000000A (st 8 [(1, 10)] [])) = some 12 := by rfl
theorem test_bgeqi_zero_extended :
    pcAfter (run 0x17010004FFFFFFFF (st 8 [(1, 0xFFFFFFFFFFFFFFFF)] [])) = some 9 := by rfl
/-- The other parameter values, as section 4 marks them: `EXT_BR = zext`, `BR_BASE = pc + 1`, `EXT_IMM = sext`. -/
theorem test_branch_parameters :
    pcAfter (run 0x02010200FFFFFFFF { st 0x10 [] [] with cfg := { cfg with extBr := .zext } }) = some 0x10000000F ∧
    pcAfter (run 0x0201020000000005 { st 0x10 [] [] with cfg := { cfg with brBase := .pcPlusStep } }) = some 0x16 ∧
    pcAfter (run 0x17010004FFFFFFFF { st 8 [(1, 0xFFFFFFFFFFFFFFFF)] [] with cfg := { cfg with extImm := .sext } }) =
      some 12 := by decide +kernel

/-! ## ALU operations (section 5) -/

theorem test_add_1 :
    regAfter 3 (run 0x8001020300000000 (st 0 [(1, 0xFFFFFFFFFFFFFFFF), (2, 0x1)] [])) = some 0x0 := by rfl
theorem test_add_2 :
    regAfter 3 (run 0x8001020300000000 (st 0 [(1, 0x123456789ABCDEF0), (2, 0xFEDCBA987654321)] [])) =
      some 0x2222222222222211 := by rfl
theorem test_sub_1 :
    regAfter 3 (run 0x8101020300000000 (st 0 [(1, 0x5), (2, 0x7)] [])) = some 0xFFFFFFFFFFFFFFFE := by rfl
theorem test_sub_2 :
    regAfter 3 (run 0x8101020300000000 (st 0 [(1, 0x8000000000000000), (2, 0x1)] [])) =
      some 0x7FFFFFFFFFFFFFFF := by rfl
theorem test_mul_1 :
    regAfter 3 (run 0x8201020300000000 (st 0 [(1, 0xFFFFFFFF), (2, 0xFFFFFFFF)] [])) = some 0xFFFFFFFE00000001 := by rfl
theorem test_mul_2 :
    regAfter 3 (run 0x8201020300000000 (st 0 [(1, 0x8000000000000000), (2, 0xFFFFFFFFFFFFFFFF)] [])) =
      some 0x8000000000000000 := by rfl
theorem test_and_1 :
    regAfter 3 (run 0x8301020300000000 (st 0 [(1, 0x123456789ABCDEF0), (2, 0xFF)] [])) = some 0xF0 := by rfl
theorem test_and_2 :
    regAfter 3 (run 0x8301020300000000 (st 0 [(1, 0xF0F0F0F0F0F0F0F0), (2, 0xFF00FF00FF00FF00)] [])) =
      some 0xF000F000F000F000 := by rfl
theorem test_or_1 :
    regAfter 3 (run 0x8401020300000000 (st 0 [(1, 0x123456789ABCDEF0), (2, 0xF)] [])) =
      some 0x123456789ABCDEFF := by rfl
theorem test_or_2 :
    regAfter 3 (run 0x8401020300000000 (st 0 [(1, 0xF0F0F0F0F0F0F0F0), (2, 0xFF00FF00FF00FF00)] [])) =
      some 0xFFF0FFF0FFF0FFF0 := by rfl
theorem test_xor_1 :
    regAfter 3 (run 0x8601020300000000 (st 0 [(1, 0x123456789ABCDEF0), (2, 0xFF)] [])) =
      some 0x123456789ABCDE0F := by rfl
theorem test_xor_2 :
    regAfter 3 (run 0x8601020300000000 (st 0 [(1, 0xF0F0F0F0F0F0F0F0), (2, 0xFF00FF00FF00FF00)] [])) =
      some 0xFF00FF00FF00FF0 := by rfl
theorem test_xnor_1 :
    regAfter 3 (run 0x8701020300000000 (st 0 [(1, 0x123456789ABCDEF0), (2, 0xFF)] [])) =
      some 0xEDCBA987654321F0 := by rfl
theorem test_xnor_2 :
    regAfter 3 (run 0x8701020300000000 (st 0 [(1, 0xF0F0F0F0F0F0F0F0), (2, 0xFF00FF00FF00FF00)] [])) =
      some 0xF00FF00FF00FF00F := by rfl
theorem test_nor_1 :
    regAfter 3 (run 0x8801020300000000 (st 0 [(1, 0x123456789ABCDEF0), (2, 0xF0)] [])) =
      some 0xEDCBA9876543210F := by rfl
theorem test_nor_2 :
    regAfter 3 (run 0x8801020300000000 (st 0 [(1, 0xF0F0F0F0F0F0F0F0), (2, 0xFF00FF00FF00FF00)] [])) =
      some 0xF000F000F000F := by rfl
theorem test_ceq_1 : regAfter 3 (run 0x8901020300000000 (st 0 [(1, 0x5), (2, 0x5)] [])) = some 0x1 := by rfl
theorem test_ceq_2 :
    regAfter 3 (run 0x8901020300000000 (st 0 [(1, 0xFFFFFFFF), (2, 0xFFFFFFFFFFFFFFFF)] [])) = some 0x0 := by rfl
theorem test_clt_1 :
    regAfter 3 (run 0x8A01020300000000 (st 0 [(1, 0xFFFFFFFFFFFFFFFF), (2, 0x0)] [])) = some 0x1 := by rfl
theorem test_clt_2 :
    regAfter 3 (run 0x8A01020300000000 (st 0 [(1, 0x7FFFFFFFFFFFFFFF), (2, 0x8000000000000000)] [])) =
      some 0x0 := by rfl
theorem test_clte_1 :
    regAfter 3 (run 0x8B01020300000000 (st 0 [(1, 0x8000000000000000), (2, 0x8000000000000000)] [])) =
      some 0x1 := by rfl
theorem test_clte_2 :
    regAfter 3 (run 0x8B01020300000000 (st 0 [(1, 0x7FFFFFFFFFFFFFFF), (2, 0x8000000000000000)] [])) =
      some 0x0 := by rfl
theorem test_shr_1 :
    regAfter 3 (run 0x8C01020300000000 (st 0 [(1, 0xFFFFFFFFFFFFFFFF), (2, 0x13F)] [])) = some 0x1 := by rfl
theorem test_shr_2 :
    regAfter 3 (run 0x8C01020300000000 (st 0 [(1, 0xFFFFFFFFFFFFFFFF), (2, 0xFF)] [])) = some 0x0 := by rfl
theorem test_shl_1 :
    regAfter 3 (run 0x8D01020300000000 (st 0 [(1, 0xFFFFFFFFFFFFFFFF), (2, 0x101)] [])) =
      some 0xFFFFFFFFFFFFFFFE := by rfl
theorem test_shl_2 :
    regAfter 3 (run 0x8D01020300000000 (st 0 [(1, 0xFFFFFFFFFFFFFFFF), (2, 0x40)] [])) = some 0x0 := by rfl
theorem test_rr_1 :
    regAfter 3 (run 0x8E01020300000000 (st 0 [(1, 0x123456789ABCDEF0), (2, 0x41)] [])) =
      some 0x91A2B3C4D5E6F78 := by rfl
theorem test_rr_2 :
    regAfter 3 (run 0x8E01020300000000 (st 0 [(1, 0x123456789ABCDEF0), (2, 0x104)] [])) =
      some 0x123456789ABCDEF := by rfl
theorem test_rl_1 :
    regAfter 3 (run 0x8F01020300000000 (st 0 [(1, 0x123456789ABCDEF0), (2, 0xC1)] [])) =
      some 0x2468ACF13579BDE0 := by rfl
theorem test_rl_2 :
    regAfter 3 (run 0x8F01020300000000 (st 0 [(1, 0x123456789ABCDEF0), (2, 0x13C)] [])) =
      some 0x123456789ABCDEF := by rfl
theorem test_not :
    regAfter 2 (run 0x8501000200000000 (st 0 [(1, 0x123456789ABCDEF0)] [])) = some 0xEDCBA9876543210F := by rfl
theorem test_addi_1 : regAfter 2 (run 0x90010002000000A6 (st 0 [(1, 0x10)] [])) = some 0xB6 := by rfl
theorem test_addi_2 : regAfter 2 (run 0x90010002FFFFFFFF (st 0 [(1, 0x1)] [])) = some 0x100000000 := by rfl
theorem test_subi_1 : regAfter 2 (run 0x9101000200000001 (st 0 [(1, 0x0)] [])) = some 0xFFFFFFFFFFFFFFFF := by rfl
theorem test_subi_2 : regAfter 2 (run 0x91010002FFFFFFFF (st 0 [(1, 0x0)] [])) = some 0xFFFFFFFF00000001 := by rfl
theorem test_muli_1 : regAfter 2 (run 0x9201000200000003 (st 0 [(1, 0x3)] [])) = some 0x9 := by rfl
theorem test_muli_2 : regAfter 2 (run 0x92010002FFFFFFFF (st 0 [(1, 0x2)] [])) = some 0x1FFFFFFFE := by rfl
theorem test_andi_1 : regAfter 2 (run 0x93010002000000FF (st 0 [(1, 0x123456789ABCDEF0)] [])) = some 0xF0 := by rfl
theorem test_andi_2 :
    regAfter 2 (run 0x93010002FFFFFFFF (st 0 [(1, 0x123456789ABCDEF0)] [])) = some 0x9ABCDEF0 := by rfl
theorem test_ori_1 :
    regAfter 2 (run 0x940100020000000F (st 0 [(1, 0x123456789ABCDEF0)] [])) = some 0x123456789ABCDEFF := by rfl
theorem test_ori_2 : regAfter 2 (run 0x9401000280000000 (st 0 [(1, 0x0)] [])) = some 0x80000000 := by rfl
theorem test_xori_1 : regAfter 2 (run 0x96010002000000FF (st 0 [(1, 0x55)] [])) = some 0xAA := by rfl
theorem test_xnori_1 :
    regAfter 2 (run 0x97010002000000FF (st 0 [(1, 0x123456789ABCDEF0)] [])) = some 0xEDCBA987654321F0 := by rfl
theorem test_nori_1 :
    regAfter 2 (run 0x98010002000000F0 (st 0 [(1, 0x123456789ABCDEF0)] [])) = some 0xEDCBA9876543210F := by rfl
theorem test_nori_2 : regAfter 2 (run 0x9801000200000000 (st 0 [(1, 0x0)] [])) = some 0xFFFFFFFFFFFFFFFF := by rfl
theorem test_ceqi_1 : regAfter 2 (run 0x99010002000000A6 (st 0 [(1, 0xA6)] [])) = some 0x1 := by rfl
theorem test_ceqi_2 : regAfter 2 (run 0x99010002FFFFFFFF (st 0 [(1, 0xFFFFFFFFFFFFFFFF)] [])) = some 0x0 := by rfl
theorem test_clti_1 : regAfter 2 (run 0x9A01000200000000 (st 0 [(1, 0xFFFFFFFFFFFFFFFF)] [])) = some 0x1 := by rfl
theorem test_clti_2 : regAfter 2 (run 0x9A010002FFFFFFFF (st 0 [(1, 0x0)] [])) = some 0x1 := by rfl
theorem test_cltei_1 : regAfter 2 (run 0x9B0100020000000A (st 0 [(1, 0xA)] [])) = some 0x1 := by rfl
theorem test_cltei_2 : regAfter 2 (run 0x9B0100020000000A (st 0 [(1, 0xB)] [])) = some 0x0 := by rfl
theorem test_shri_1 : regAfter 2 (run 0x9C01000200000004 (st 0 [(1, 0x7E0)] [])) = some 0x7E := by rfl
theorem test_shri_2 : regAfter 2 (run 0x9C01000200000040 (st 0 [(1, 0xFFFFFFFFFFFFFFFF)] [])) = some 0x0 := by rfl
theorem test_shli_1 : regAfter 2 (run 0x9D01000200000004 (st 0 [(1, 0x7E)] [])) = some 0x7E0 := by rfl
theorem test_shli_2 : regAfter 2 (run 0x9D0100020000003F (st 0 [(1, 0x1)] [])) = some 0x8000000000000000 := by rfl
theorem test_rri_1 :
    regAfter 2 (run 0x9E01000200000008 (st 0 [(1, 0x123456789ABCDEF0)] [])) = some 0xF0123456789ABCDE := by rfl
theorem test_rli_1 :
    regAfter 2 (run 0x9F01000200000008 (st 0 [(1, 0x123456789ABCDEF0)] [])) = some 0x3456789ABCDEF012 := by rfl
theorem test_rli_2 :
    regAfter 2 (run 0x9F01000200000048 (st 0 [(1, 0x123456789ABCDEF0)] [])) = some 0x3456789ABCDEF012 := by rfl
/-- `SHIFT_OVER = mod64` and `EXT_IMM = sext`, as section 5 marks them. -/
theorem test_alu_parameters :
    regAfter 3 (run 0x8C01020300000000
      { st 0 [(1, 0xFFFFFFFFFFFFFFFF), (2, 0xFF)] [] with cfg := { cfg with shiftOver := .mod64 } }) = some 1 ∧
    regAfter 2 (run 0x92010002FFFFFFFF { st 0 [(1, 2)] [] with cfg := { cfg with extImm := .sext } }) =
      some 0xFFFFFFFFFFFFFFFE := by decide +kernel
/-- Source and target the same register: both reads see the old value. -/
theorem test_add_same_register : regAfter 1 (run 0x8001010100000000 (st 0 [(1, 0x15)] [])) = some 0x2A := by rfl
/-- A write to `nptr` is discarded; without `NPTR_ZERO` it is kept (R22). -/
theorem test_nptr :
    regAfter 0 (run 0x9001000000000005 (st 0 [(1, 0x15)] [])) = some 0 ∧
    regAfter 0 (run 0x9001000000000005 { st 0 [(1, 0x15)] [] with cfg := { cfg with nptrZero := false } }) = some 0x1A :=
  by decide +kernel

/-! ## Memory (section 6) -/

theorem test_lw : regAfter 2 (run 0x40FE000200000003 (st 0 [(0xFE, 0x100)] [(0x103, 0x2A)])) = some 0x2A := by rfl
theorem test_lw_into_base :
    regAfter 0xFE (run 0x40FE00FE00000003 (st 0 [(0xFE, 0x100)] [(0x103, 0x2A)])) = some 0x2A := by rfl
theorem test_lw_wraps :
    regAfter 2 (run 0x40FE000200000003 (st 0 [(0xFE, 0xFFFFFFFFFFFFFFFF)] [(2, 5)])) = some 5 := by rfl
theorem test_lwi : regAfter 3 (run 0x5000000300000020 (st 0 [] [(0x20, 0x2A)])) = some 0x2A := by rfl
theorem test_sw : memAfter 0x103 (run 0x41FE000100000003 (st 0 [(0xFE, 0x100), (1, 0x2A)] [])) = some 0x2A := by rfl
theorem test_swi_overwrites :
    memAfter 0x20 (run 0x5100000200000020 (st 0 [(2, 0x2A)] [(0x20, 0x99)])) = some 0x2A := by rfl
/-- The two ends of memory, and the word nothing has written (F6 before F5). -/
theorem test_memory_faults :
    faultOf (run 0x40FE000200000003 (st 0 [(0xFE, 0x100)] [])) = some (.uninitRead 0x103) ∧
    faultOf (run 0x40FE000200000001 (st 0 [(0xFE, 0xFFFFF)] [])) = some (.memOutOfRange 0x100000) ∧
    faultOf (run 0x50000003FFFFFFFF (st 0 [] [])) = some (.memOutOfRange 0xFFFFFFFF) ∧
    faultOf (run 0x41FE000100000000 (st 0 [(0xFE, 0x100000), (1, 1)] [])) = some (.memOutOfRange 0x100000) := by decide +kernel
/-- `MEM_RESET = zero`: a word nothing has written reads 0 (R30); writing 0 lists no cell. -/
theorem test_mem_reset_zero :
    regAfter 3 (run 0x5000000300000020 { st 0 [] [] with cfg := { cfg with memReset := .zero } }) = some 0 ∧
    Memory.writeWord (some 0) [(0x100, 0x99)] 0x20 0 = [] := by decide +kernel

/-! ## IO (section 7) -/

theorem test_lio : regAfter 1 (run 0x4400010200000001 (hostAnswers (st 0 [] []) 0x55 1)) = some 0x55 ∧
    regAfter 2 (run 0x4400010200000001 (hostAnswers (st 0 [] []) 0x55 1)) = some 1 := by decide +kernel
theorem test_lio_nptr :
    traceAfter (run 0x4400000200000007 (hostAnswers (st 0 [] []) 0x55 1)) = some [.read 7 0x55 1] := by rfl
theorem test_lioi : regAfter 1 (run 0x5400010200000001 (hostAnswers (st 0 [] []) 0xFFFFFFFFFFFFFFFF 0)) =
      some 0xFFFFFFFFFFFFFFFF ∧
    regAfter 2 (run 0x5400010200000001 (hostAnswers (st 0 [(2, 9)] []) 0xFFFFFFFFFFFFFFFF 0)) = some 0 := by decide +kernel
theorem test_sio :
    sentAfter (run 0x45FE000300000002 (st 0 [(0xFE, 0x100), (3, 0xAA)] [])) = some [(0x102, 0xAA)] := by rfl
theorem test_sio_imm :
    sentAfter (run 0x45FE000300000002 { st 0 [(0xFE, 0x100), (3, 0xAA)] [] with cfg := { cfg with sioAddr := .imm } }) =
      some [(2, 0xAA)] := by rfl
theorem test_sioi : sentAfter (run 0x5500000300000002 (st 0 [(3, 0xAA)] [])) = some [(2, 0xAA)] := by rfl
theorem test_sioi_fixed_control :
    traceAfter (run 0x5500000000000002 { st 0 [] [] with cfg := { cfg with sioCtrl := .fixed 1 } }) =
      some [.write 2 0 1] := by rfl
/-- "With `DEVICES = {1, 2}`, `lio 0x07,0x01,0x02` raises `NoDevice(0x7)`." -/
theorem test_no_device :
    faultOf (run 0x4400010200000007 { st 0 [] [] with cfg := { cfg with devices := .only [1, 2] } }) =
      some (.noDevice 7) := by rfl

/-! ## Call and return (section 8) -/

theorem test_call : pcAfter (run 0x4200000000000005 (st 2 [(0xFF, 0x200)] [])) = some 5 ∧
    regAfter 0xFF (run 0x4200000000000005 (st 2 [(0xFF, 0x200)] [])) = some 0x1FF ∧
    memAfter 0x1FF (run 0x4200000000000005 (st 2 [(0xFF, 0x200)] [])) = some 3 := by decide +kernel
theorem test_call_parameters :
    memAfter 0x200 (run 0x4200000000000005
      { st 2 [(0xFF, 0x200)] [] with cfg := { cfg with callSaves := .pc, stackDir := .upPost } }) = some 2 ∧
    regAfter 0xFF (run 0x4200000000000005
      { st 2 [(0xFF, 0x200)] [] with cfg := { cfg with callSaves := .pc, stackDir := .upPost } }) = some 0x201 :=
  by decide +kernel
theorem test_ret : pcAfter (run 0x4300000000000000 (st 6 [(0xFF, 0x1FF)] [(0x1FF, 3)])) = some 3 ∧
    regAfter 0xFF (run 0x4300000000000000 (st 6 [(0xFF, 0x1FF)] [(0x1FF, 3)])) = some 0x200 ∧
    memAfter 0x1FF (run 0x4300000000000000 (st 6 [(0xFF, 0x1FF)] [(0x1FF, 3)])) = some 3 := by decide +kernel
theorem test_ret_parameters :
    pcAfter (run 0x4300000000000000
      { st 6 [(0xFF, 0x201)] [(0x200, 2)] with cfg := { cfg with callSaves := .pc, stackDir := .upPost } }) = some 3 := by rfl
/-- The stack at the two ends of memory, and a return with nothing pushed. -/
theorem test_stack_faults :
    faultOf (run 0x4200000000000005 (st 2 [] [])) = some (.memOutOfRange 0xFFFFFFFFFFFFFFFF) ∧
    memAfter 0xFFFFF (run 0x4200000000000005 (st 2 [(0xFF, 0x100000)] [])) = some 3 ∧
    faultOf (run 0x4300000000000000 (st 6 [(0xFF, 0x100000)] [])) = some (.memOutOfRange 0x100000) ∧
    faultOf (run 0x4300000000000000 (st 6 [(0xFF, 0x1FF)] [])) = some (.uninitRead 0x1FF) := by decide +kernel

/-! ## End of run, faults, order of checks (section 9) -/

theorem test_empty_program_halts : step State.reset = .next State.reset.halt := by rfl
theorem test_beyond_program :
    faultOf (step { st 2 [] [] with prog := [0x0100000000000002] }) = some (.fetchOutOfRange 2) := by rfl
theorem test_all_zero_word : faultOf (run 0 (st 0 [] [])) = some (.illegalInstruction 0) := by rfl
theorem test_reserved_word :
    faultOf (run 0x8002030100000001 (st 0 [] [])) = some (.reservedEncoding 0x8002030100000001) := by rfl
theorem test_halted_stays : step State.reset.halt = .next State.reset.halt := by rfl
theorem test_bad_configuration :
    step { st 0 [] [] with cfg := { cfg with regMem := 0xFF } } = .refused .badConfiguration := by rfl

/-! ## The memory keeps its canonical form -/

theorem test_memory_sorted :
    Memory.writeByte none (Memory.writeByte none (Memory.writeByte none [] 7 1) 3 2) 7 3 = [(3, 2), (7, 3)] := by decide

/-! ## Whole programs (section 10): the steps that end them -/

/-- The state after `n` steps, if each answers a next state. -/
def runs (n : Nat) (s : State) : Option State :=
  match n with
  | 0 => some s
  | n + 1 =>
    match step s with
    | .next t => runs n t
    | _ => none

/-- P3: call and return, seven instructions. -/
theorem test_program_call :
    ((runs 7 { st 0 [] [] with prog := [0x900000FF00000200, 0x9000000100000005, 0x4200000000000005, 0x9001000100000001,
      0x0100000000000007, 0x8001010100000000, 0x4300000000000000] }).map fun t =>
        (t.pc, t.readReg 1, t.readReg 0xFF, t.wordAt 0x1FF)) = some (7, 0xB, 0x200, some 3) := by decide +kernel

/-! ## The hypotheses of the statements can be met

One theorem for each statement with hypotheses, at boundary values of its clauses. -/

/-- A state for the statements about `step`: `w` is the program, the pc is 0. -/
def holding (w : Word) : State := { st 0 [] [] with prog := [w] }

theorem witness_EncodingADecodedWordGivesItBack :
    cfg.strictDecode = true ∧ decode cfg 0x9C01000212345604 = .ok (.shri 0x01 0x04 0x02) ∧
    decode cfg 0x4300000000000000 = .ok .ret := by decide +kernel

theorem witness_UndefinedOpcodesAreIllegal :
    (holding 0xA001020300000000).cfg.wf = true ∧ (holding 0xA001020300000000).status = .running ∧
    (holding 0xA001020300000000).prog[(holding 0xA001020300000000).pc.toNat]? = some 0xA001020300000000 ∧
    undefinedOpcode (opField 0xA001020300000000) :=
  ⟨by decide, rfl, rfl, by unfold undefinedOpcode; decide⟩

theorem witness_ReservedEncodingsAreRefused :
    (holding 0x4300000000000001).cfg.wf = true ∧ (holding 0x4300000000000001).status = .running ∧
    (holding 0x4300000000000001).prog[(holding 0x4300000000000001).pc.toNat]? = some 0x4300000000000001 ∧
    rowOf 0x4300000000000001 = some (rowN 0x43 .ret) ∧ (holding 0x4300000000000001).cfg.strictDecode = true ∧
    ¬ (rowN 0x43 .ret).format.zeroFields 0x4300000000000001 ∧
    rowOf 0x4300000000000000 = some (rowN 0x43 .ret) ∧ (rowN 0x43 .ret).format.zeroFields 0x4300000000000000 ∧
    ({ cfg with strictDecode := false } : Config).strictDecode = false ∧
    assemble cfg "ret" = some 0x4300000000000000 :=
  ⟨by decide, rfl, rfl, rfl, rfl, by show ¬ imm56Field 0x4300000000000001 = 0; decide, rfl,
    by show imm56Field 0x4300000000000000 = 0; decide, rfl, by rfl⟩

theorem witness_AssembledWordsDecode :
    assemble cfg "jmp 0xFFFFFFFFFFFFFF" = some 0x01FFFFFFFFFFFFFF := by decide +kernel

theorem witness_AssemblerFillsTheBaseRegister :
    parseLine cfg "lw 0x03,0x02" = some (.lw 0xFE 0x03 0x02) ∧ parseLine cfg "sw 0x03,sp" = some (.sw 0xFE 0x03 0xFF) ∧
    parseLine cfg "sio 0xFFFFFFFF,mem" = some (.sio 0xFE 0xFFFFFFFF 0xFE) := by decide +kernel

theorem witness_StepRunsTheDecodedInstruction :
    (holding 0x90000001000000A6).cfg.wf = true ∧ (holding 0x90000001000000A6).status = .running ∧
    (holding 0x90000001000000A6).prog[(holding 0x90000001000000A6).pc.toNat]? = some 0x90000001000000A6 ∧
    decode (holding 0x90000001000000A6).cfg 0x90000001000000A6 = .ok (.addi 0x00 0xA6 0x01) := by decide +kernel

/-- The pc at `PROG_LEN`, and one beyond it. -/
theorem witness_RunsEndAtTheProgramLength :
    (st 0 [] []).cfg.wf = true ∧ (st 0 [] []).status = .running ∧ (st 0 [] []).pc.toNat = (st 0 [] []).prog.length ∧
    (st 1 [] []).status = .running ∧ (st 1 [] []).prog.length < (st 1 [] []).pc.toNat := by decide +kernel

theorem witness_TerminalStatesAreNeverLeft :
    step (st 1 [] []) = .fault (.fetchOutOfRange 1) ∧ (st 1 [] []).status = .running ∧
    State.reset.halt.status ≠ .running := ⟨rfl, rfl, by decide⟩

theorem witness_EveryStepKeepsTheInvariant :
    (holding 0x5100000200000020).Inv ∧ ∃ t, step (holding 0x5100000200000020) = .next t ∧ t.wordAt 0x20 = some 0 :=
  ⟨{ config := by decide
     canonical := ⟨List.Pairwise.nil, fun _ hx => nomatch hx⟩
     inside := fun _ hx => nomatch hx
     wholeWords := fun _ => .inr fun _ _ => rfl
     nptr := fun _ => by decide +kernel
     devices := fun _ he => nomatch he }, _, rfl, by decide +kernel⟩

theorem witness_StoresAreNeverSeenByFetch : ∃ t, step (holding 0x5100000200000020) = .next t := ⟨_, rfl⟩

theorem witness_OnlyDestinationRegistersAreWritten :
    ∃ t, exec (.lio 1 1 2) (st 0 [] []) = .next t ∧ destRegs (st 0 [] []).cfg (.lio 1 1 2) = [1, 2] := ⟨_, rfl, rfl⟩

/-- A store to the last word of memory, and an instruction that stores nothing. -/
theorem witness_OnlyStoresAndCallsWriteMemory :
    (∃ t, exec (.swi 0xFFFFF 2) (st 0 [] []) = .next t) ∧ storeAddr (.swi 0xFFFFF 2) (st 0 [] []) = some 0xFFFFF ∧
    (∃ t, exec (.add 1 2 3) (st 0 [] []) = .next t) ∧ storeAddr (.add 1 2 3) (st 0 [] []) = none :=
  ⟨⟨_, rfl⟩, rfl, ⟨_, rfl⟩, rfl⟩

theorem witness_EveryIoAccessIsRecordedOnce :
    (∃ t, exec (.sioi 2 3) (st 0 [] []) = .next t) ∧ ioDev (.sioi 2 3) (st 0 [] []) = some 2 ∧
    (∃ t, exec (.lioi 0 3 4) (st 0 [] []) = .next t) ∧ ioDev (.lioi 0 3 4) (st 0 [] []) = some 0 ∧
    (∃ t, exec (.add 1 2 3) (st 0 [] []) = .next t) ∧ ioDev (.add 1 2 3) (st 0 [] []) = none :=
  ⟨⟨_, rfl⟩, rfl, ⟨_, rfl⟩, rfl, ⟨_, rfl⟩, rfl⟩

/-- At the last address, where the next one is 0. -/
theorem witness_OtherInstructionsGoToTheNextAddress :
    (∃ t, exec (.add 1 2 3) (st 0xFFFFFFFFFFFFFFFF [] []) = .next t ∧ t.pc = 0) ∧
    transfersControl (.add 1 2 3) = false := ⟨⟨_, rfl, by decide⟩, rfl⟩

theorem witness_NptrReadsZeroAndDiscardsWrites :
    (st 0 [(0, 5)] []).cfg.nptrZero = true ∧ (st 0 [(0, 5)] []).regs[0] = 5 ∧
    (∃ t, exec (.addi 0 7 0) (st 0 [(0, 5)] []) = .next t) ∧
    ({ st 0 [] [] with cfg := { cfg with nptrZero := false } } : State).cfg.nptrZero = false :=
  ⟨rfl, by decide +kernel, ⟨_, rfl⟩, rfl⟩

/-- The first address that is no register, in the second field; and 256 registers. -/
theorem witness_InvalidRegisterAddressesFault :
    ((Instr.add 15 16 17).usedRegs cfg16).find? (fun x => decide (cfg16.nreg ≤ x.toNat)) = some 16 ∧
    cfg.nreg = 256 := by decide

theorem witness_FaultsComeFromTheInstructionsNamed :
    exec (.add 1 16 3) { st 0 [] [] with cfg := cfg16 } = .fault (.registerOutOfRange 16) ∧
    exec (.lwi 0x100000 1) (st 0 [] []) = .fault (.memOutOfRange 0x100000) ∧
    exec (.lwi 0xFFFFF 1) (st 0 [] []) = .fault (.uninitRead 0xFFFFF) ∧
    exec (.lio 7 1 2) { st 0 [] [] with cfg := { cfg with devices := .only [1, 2] } } = .fault (.noDevice 7) :=
  ⟨rfl, rfl, rfl, rfl⟩

theorem witness_InstructionsOffMemoryAndPortsNeverFault :
    (holding 0x80FFFFFF00000000).cfg.wf = true ∧ (holding 0x80FFFFFF00000000).status = .running ∧
    (holding 0x80FFFFFF00000000).prog[(holding 0x80FFFFFF00000000).pc.toNat]? = some 0x80FFFFFF00000000 ∧
    decode (holding 0x80FFFFFF00000000).cfg 0x80FFFFFF00000000 = .ok (.add 0xFF 0xFF 0xFF) ∧
    (Instr.add 0xFF 0xFF 0xFF).wf (holding 0x80FFFFFF00000000).cfg = true ∧ readsMem (.add 0xFF 0xFF 0xFF) = false ∧
    writesMem (.add 0xFF 0xFF 0xFF) = false ∧ ioDev (.add 0xFF 0xFF 0xFF) (holding 0x80FFFFFF00000000) = none := by
  decide +kernel

/-- A jump to `PROG_LEN`, and one beyond it. -/
theorem witness_JumpSetsThePc :
    (holding 0).cfg.wf = true ∧ (holding 0).status = .running ∧ (1#56).toNat = (holding 0).prog.length ∧
    (holding 0).prog.length < (2#56).toNat := by decide

/-- The last register of a file of 16 and of a file of 256 is valid: the hypotheses of the three-register, the
immediate, the shift and the `not` forms. -/
theorem witness_RegForm_ImmForm_ShiftForm :
    cfg16.validReg 15 = true ∧ cfg16.validReg 0 = true ∧ cfg.validReg 255 = true := by decide

theorem witness_NotInvertsEveryBit :
    cfg.strictDecode = true ∧ ((0#8 : Byte) ≠ 0 ∨ (1#32) ≠ 0) ∧ ((1#8 : Byte) ≠ 0 ∨ (0#32) ≠ 0) ∧
    opField 0x9501000200000000 = 0x95 ∧ cfg16.validReg 15 = true := by decide

/-- Each of the six conditions holds of some registers and fails of others, the signed ends among them. -/
theorem witness_RegBranch_ImmBranch :
    cfg16.validReg 15 = true ∧
    (st 0 [(1, 0x8000000000000000), (2, 0x7FFFFFFFFFFFFFFF)] []).readReg 1 ≠
      (st 0 [(1, 0x8000000000000000), (2, 0x7FFFFFFFFFFFFFFF)] []).readReg 2 ∧
    ((st 0 [(1, 0x8000000000000000), (2, 0x7FFFFFFFFFFFFFFF)] []).readReg 1).toInt <
      ((st 0 [(1, 0x8000000000000000), (2, 0x7FFFFFFFFFFFFFFF)] []).readReg 2).toInt ∧
    (st 0 [(1, 5), (2, 5)] []).readReg 1 = (st 0 [(1, 5), (2, 5)] []).readReg 2 ∧
    ((st 0 [(1, 5)] []).readReg 1).toInt > (ext (st 0 [(1, 5)] []).cfg.extImm (4#32)).toInt ∧
    (st 0 [(1, 5)] []).readReg 1 = ext (st 0 [(1, 5)] []).cfg.extImm (5#32) ∧
    ((st 0 [(1, 5)] []).readReg 1).toInt < (ext (st 0 [(1, 5)] []).cfg.extImm (6#32)).toInt := by decide +kernel

theorem witness_FieldsAreWidenedByValue : 0 < 1 ∧ 1 ≤ 64 ∧ 0 < 64 ∧ 64 ≤ 64 := by decide

/-- The last word of memory holds a value; both register fields are valid. -/
theorem witness_LoadsReadOneWord :
    cfg.validReg 0xFE = true ∧ cfg.validReg 2 = true ∧
    ((st 0 [(0xFE, 0xFFFFF)] [(0xFFFFF, 9)]).readReg 0xFE + ext cfg.extOff (0#32)).toNat < cfg.memWords ∧
    (st 0 [(0xFE, 0xFFFFF)] [(0xFFFFF, 9)]).wordAt
      ((st 0 [(0xFE, 0xFFFFF)] [(0xFFFFF, 9)]).readReg 0xFE + ext cfg.extOff (0#32)) = some 9 ∧
    (ext cfg.extOff (0xFFFFF#32)).toNat < cfg.memWords ∧
    (st 0 [] [(0xFFFFF, 9)]).wordAt (ext cfg.extOff (0xFFFFF#32)) = some 9 := by decide +kernel

theorem witness_StoresWriteOneWord :
    cfg.validReg 0xFE = true ∧ cfg.validReg 1 = true ∧
    ((st 0 [(0xFE, 0xFFFFF)] []).readReg 0xFE + ext cfg.extOff (0#32)).toNat < cfg.memWords ∧
    (ext cfg.extOff (0xFFFFF#32)).toNat < cfg.memWords := by decide +kernel

/-- The first word beyond memory, and the last word of it, which nothing has written. -/
theorem witness_MemoryFaultsFollowTheirOrder :
    (st 0 [] []).cfg.validReg 0xFE = true ∧
    (st 0 [(0xFE, 0xFFFFF)] []).cfg.memWords ≤ ((st 0 [(0xFE, 0xFFFFF)] []).baseAddr 0xFE 1).toNat ∧
    ((st 0 [(0xFE, 0xFFFFF)] []).baseAddr 0xFE 0).toNat < (st 0 [(0xFE, 0xFFFFF)] []).cfg.memWords ∧
    (st 0 [(0xFE, 0xFFFFF)] []).wordAt ((st 0 [(0xFE, 0xFFFFF)] []).baseAddr 0xFE 0) = none ∧
    (st 0 [] []).cfg.memWords ≤ ((st 0 [] []).directAddr 0x100000).toNat ∧
    ((st 0 [] []).directAddr 0xFFFFF).toNat < (st 0 [] []).cfg.memWords ∧
    (st 0 [] []).wordAt ((st 0 [] []).directAddr 0xFFFFF) = none := by decide +kernel

theorem witness_StoredWordsLoadBackUnchanged :
    (∃ t, exec (.sw 0xFE 3 1) (st 0 [(0xFE, 0x100), (1, 42)] []) = .next t) ∧
    (∃ t, exec (.swi 0xFFFFF 1) (st 0 [(1, 42)] []) = .next t) ∧ (st 0 [] []).cfg.validReg 2 = true :=
  ⟨⟨_, rfl⟩, ⟨_, rfl⟩, by decide⟩

/-- Any device answers by default; the host has an answer or not; the two destinations differ or are the same. -/
theorem witness_IoReadsDeliverWordAndControlBit :
    cfg.validReg 1 = true ∧ cfg.validReg 2 = true ∧ cfg.devices.answers (ext cfg.extOff (0xFFFFFFFF#32)) = true ∧
    (hostAnswers (st 0 [] []) 0x55 1).ioIn = ⟨0x55, 1⟩ :: [] ∧ (1 : RegAddr) ≠ 2 ∧ (2 : RegAddr) = 2 := by decide

theorem witness_IoWritesSendOneWord :
    cfg.validReg 3 = true ∧ cfg.validReg 0xFE = true ∧ cfg.sioAddr = .basePlusImm ∧ cfg.devices.answers 2 = true ∧
    ({ cfg with sioAddr := .imm } : Config).sioAddr = .imm ∧
    ({ cfg with sioCtrl := .fixed 1 } : Config).sioCtrl = .fixed 1 := by decide

theorem witness_UnansweredDevicesFault :
    (Instr.lio 7 1 2).wf { cfg with devices := .only [1, 2] } = true ∧
    ioDev (.lio 7 1 2) { st 0 [] [] with cfg := { cfg with devices := .only [1, 2] } } = some 7 ∧
    (DeviceSet.only [1, 2]).answers 7 = false := by decide

/-- A push to the last word of memory, and one that wraps beyond it. -/
theorem witness_CallPushesAndJumps :
    (st 2 [(0xFF, 0x100000)] []).pushAddr.toNat < (st 2 [(0xFF, 0x100000)] []).cfg.memWords ∧
    (st 2 [] []).cfg.memWords ≤ (st 2 [] []).pushAddr.toNat ∧ cfg.stackDir = .downPre ∧
    ({ cfg with stackDir := .upPost } : Config).stackDir = .upPost := by decide +kernel

/-- A pop of the last word of memory, written and not written, and one beyond it. -/
theorem witness_RetPopsAndReturns :
    (st 6 [(0xFF, 0xFFFFF)] [(0xFFFFF, 3)]).popAddr.toNat < (st 6 [(0xFF, 0xFFFFF)] [(0xFFFFF, 3)]).cfg.memWords ∧
    (st 6 [(0xFF, 0xFFFFF)] [(0xFFFFF, 3)]).wordAt (st 6 [(0xFF, 0xFFFFF)] [(0xFFFFF, 3)]).popAddr = some 3 ∧
    (st 6 [(0xFF, 0xFFFFF)] []).wordAt (st 6 [(0xFF, 0xFFFFF)] []).popAddr = none ∧
    (st 6 [(0xFF, 0x100000)] []).cfg.memWords ≤ (st 6 [(0xFF, 0x100000)] []).popAddr.toNat ∧
    cfg.stackDir = .downPre ∧ ({ cfg with stackDir := .upPost } : Config).stackDir = .upPost := by decide +kernel

/-- The state right after the `call`, with the pc moved, has the stack pointer and the memory the `call` left. -/
theorem witness_ReturnContinuesAfterTheCall :
    ∃ t u, (st 2 [(0xFF, 0x100000)] []).cfg.wf = true ∧ exec (.call 5) (st 2 [(0xFF, 0x100000)] []) = .next t ∧
      u = t.setPc 6 ∧ u.cfg = t.cfg ∧ u.readReg 0xFF = t.readReg 0xFF ∧ SameMem t u :=
  ⟨_, _, by decide +kernel, rfl, rfl, rfl, rfl, fun _ => rfl⟩

end Sys2Proof.Tests
end

section
/-!
PROOFS for the statements of spec/00_scope.md: the base register the assembler fills in (R9, R23, R82), the recorded IO
accesses (R13, R31), the step (R15) and the widening of fields (R11, R76).
-/

namespace Sys2Proof.Machine

/-! ## What a line of assembly can spell

Every operand form but that of `ret` reads one to three operands, each on its own, and builds its instruction from
them; so what a form can answer is settled once for each number of operands. -/

section Forms
variable {α β γ : Type}

/-- A form of one operand. -/
def asmForm1 (p : Config → List Char → Option α) (mk : α → Instr) : AsmForm := fun c ops =>
  match ops with
  | [x] => do pure (mk (← p c x))
  | _ => none

/-- A form of two operands, with the configuration at hand for an operand that is not written. -/
def asmForm2 (p : Config → List Char → Option α) (q : Config → List Char → Option β) (mk : Config → α → β → Instr) :
    AsmForm := fun c ops =>
  match ops with
  | [x, y] => do pure (mk c (← p c x) (← q c y))
  | _ => none

/-- A form of three operands. -/
def asmForm3 (p : Config → List Char → Option α) (q : Config → List Char → Option β)
    (r : Config → List Char → Option γ) (mk : α → β → γ → Instr) : AsmForm := fun c ops =>
  match ops with
  | [x, y, z] => do pure (mk (← p c x) (← q c y) (← r c z))
  | _ => none

theorem asmJ_eq (mk : BitVec 56 → Instr) : asmJ mk = asmForm1 (fun _ => asmImm 56) mk := rfl

theorem asmR2_eq (mk : RegAddr → RegAddr → Instr) : asmR2 mk = asmForm2 asmReg asmReg fun _ => mk := rfl

theorem asmM_eq (mk : RegAddr → BitVec 32 → RegAddr → Instr) :
    asmM mk = asmForm2 (fun _ => asmImm 32) asmReg fun c => mk c.regMem := rfl

theorem asmMI_eq (mk : BitVec 32 → RegAddr → Instr) :
    asmMI mk = asmForm2 (fun _ => asmImm 32) asmReg fun _ => mk := rfl

theorem asmB_eq (mk : RegAddr → RegAddr → BitVec 32 → Instr) :
    asmB mk = asmForm3 asmReg asmReg (fun _ => asmImm 32) mk := rfl

theorem asmBI_eq (mk : RegAddr → BitVec 32 → BitVec 16 → Instr) :
    asmBI mk = asmForm3 asmReg (fun _ => asmImm 32) (fun _ => asmImm 16) mk := rfl

theorem asmR3_eq (mk : RegAddr → RegAddr → RegAddr → Instr) : asmR3 mk = asmForm3 asmReg asmReg asmReg mk := rfl

theorem asmI_eq (mk : RegAddr → BitVec 32 → RegAddr → Instr) :
    asmI mk = asmForm3 asmReg (fun _ => asmImm 32) asmReg mk := rfl

theorem asmSH_eq (mk : RegAddr → BitVec 8 → RegAddr → Instr) :
    asmSH mk = asmForm3 asmReg (fun _ => asmAmount) asmReg mk := rfl

theorem asmIO_eq (mk : BitVec 32 → RegAddr → RegAddr → Instr) :
    asmIO mk = asmForm3 (fun _ => asmImm 32) asmReg asmReg mk := rfl

/-- Every instruction the form reads stands in the relation `P` to the configuration. -/
def Yields (f : AsmForm) (P : Config → Instr → Prop) : Prop :=
  ∀ c ops i, f c ops = some i → P c i

variable {p : Config → List Char → Option α} {q : Config → List Char → Option β} {r : Config → List Char → Option γ}
  {P : Config → Instr → Prop}

theorem asmN_yields {j : Instr} (h : ∀ c, P c j) : Yields (asmN j) P := by
  intro c ops i hi
  cases ops with
  | nil => cases hi; exact h c
  | cons => cases hi

theorem asmForm1_yields {mk : α → Instr} (h : ∀ c x, P c (mk x)) : Yields (asmForm1 p mk) P := by
  intro c ops i hi
  unfold asmForm1 at hi
  split at hi
  · obtain ⟨x, -, hx⟩ := Option.bind_eq_some_iff.1 hi
    cases hx; exact h c x
  · cases hi

theorem asmForm2_yields {mk : Config → α → β → Instr} (h : ∀ c x y, P c (mk c x y)) :
    Yields (asmForm2 p q mk) P := by
  intro c ops i hi
  unfold asmForm2 at hi
  split at hi
  · obtain ⟨x, -, hx⟩ := Option.bind_eq_some_iff.1 hi
    obtain ⟨y, -, hy⟩ := Option.bind_eq_some_iff.1 hx
    cases hy; exact h c x y
  · cases hi

theorem asmForm3_yields {mk : α → β → γ → Instr} (h : ∀ c x y z, P c (mk x y z)) :
    Yields (asmForm3 p q r mk) P := by
  intro c ops i hi
  unfold asmForm3 at hi
  split at hi
  · obtain ⟨x, -, hx⟩ := Option.bind_eq_some_iff.1 hi
    obtain ⟨y, -, hy⟩ := Option.bind_eq_some_iff.1 hx
    obtain ⟨z, -, hz⟩ := Option.bind_eq_some_iff.1 hy
    cases hz; exact h c x y z
  · cases hi

end Forms

/-- What every row of the mnemonic table yields holds of every instruction a line spells. -/
theorem parseLine_of_rows {P : Config → Instr → Prop} (h : ∀ row ∈ asmRows, Yields row.2 P) {c : Config}
    {line : String} {i : Instr} (hi : parseLine c line = some i) : P c i := by
  simp only [parseLine] at hi
  split at hi
  case h_1 row hrow => exact h row (List.mem_of_find?_eq_some hrow) c _ i hi
  case h_2 => cases hi

/-! ## The base register (R9, R82) -/

/-- The base register field of the instructions whose base the assembler fills in. -/
def baseReg (i : Instr) : Option RegAddr :=
  match i with
  | .lw m _ _ | .sw m _ _ | .sio m _ _ => some m
  | _ => none

/-- The base register, if the instruction has one, is `REG_MEM`. -/
structure BaseIsRegMem (c : Config) (i : Instr) : Prop where
  eq : (baseReg i).getD c.regMem = c.regMem

/-- Row by row: `asmM` puts `REG_MEM` in the base field, and the other forms build no instruction that has one. -/
theorem asmRows_yield_baseIsRegMem : ∀ row ∈ asmRows, Yields row.2 BaseIsRegMem := by
  simp only [asmRows, asmJumpRows, asmMemRows, asmAluRows, asmAluImmRows, List.forall_mem_append, List.forall_mem_cons,
    asmJ_eq, asmB_eq, asmBI_eq, asmR3_eq, asmR2_eq, asmI_eq, asmSH_eq, asmM_eq, asmMI_eq, asmIO_eq]
  simp (disch := intros; exact BaseIsRegMem.mk rfl) [asmN_yields, asmForm1_yields, asmForm2_yields, asmForm3_yields]

/-- Settles O7: `asmM` is the only form that builds an `lw`, `sw` or `sio`, and it takes `REG_MEM` as the base. -/
theorem assemblerFillsTheBaseRegister : Obligations.AssemblerFillsTheBaseRegister := by
  intro c line m a r h
  have base {i : Instr} (hi : parseLine c line = some i) : (baseReg i).getD c.regMem = c.regMem :=
    (parseLine_of_rows asmRows_yield_baseIsRegMem hi).eq
  rcases h with h | h | h <;> exact base h

/-! ## The IO trace (R13, R31) -/

@[simp] theorem State.writePair_iotrace (s : State) (r q : RegAddr) (a : IoAnswer) (b : Bool) :
    (s.writePair r q a b).iotrace = s.iotrace := by
  obtain ⟨-, -, h, -⟩ := s.writePair_fields r q a b
  exact h

/-- An instruction that names no device leaves the trace, the host's answers and the draws alone. -/
theorem Effect.sameIo {i : Instr} {s t : State} (h : Effect i s t) (hdev : ioDev i s = none) : SameIo s t := by
  cases h with
  | jumps _ next | writes _ _ next | stores _ _ next | calls _ _ next | returns _ _ _ next => simp [SameIo, next]
  | reads _ _ _ _ _ _ _ _ io | sends _ _ _ _ _ _ _ io => rw [hdev] at io; cases io

/-- An instruction that names the device `dev` appends one entry for `dev`: a read in format IO, else a write. -/
theorem Effect.iotrace_of_ioDev {i : Instr} {s t : State} {dev : Word} (h : Effect i s t)
    (hdev : ioDev i s = some dev) :
    ∃ v c, t.iotrace = s.iotrace ++ [if i.format = .IO then .read dev v c else .write dev v c] := by
  cases h with
  | jumps _ _ _ _ _ io | writes _ _ _ _ _ _ io | stores _ _ _ _ _ _ _ io | calls _ _ _ _ _ _ io
  | returns _ _ _ _ _ _ _ io => rw [hdev] at io; cases io
  | reads dev' r q _ next _ _ _ io format =>
    obtain rfl : dev = dev' := Option.some.inj (hdev.symm.trans io)
    exact ⟨(s.nextAnswer dev).word, (s.nextAnswer dev).ctrl, by simp [next, format]⟩
  | sends dev' r _ next _ _ _ io format =>
    obtain rfl : dev = dev' := Option.some.inj (hdev.symm.trans io)
    exact ⟨s.readReg r, s.sioControl, by simp [next, format]⟩

/-- Settles O18: of the seven shapes of a next state, the two that name a device append the one entry for it. -/
theorem everyIoAccessIsRecordedOnce : Obligations.EveryIoAccessIsRecordedOnce := by
  intro i s t h
  exact ⟨(exec_effect h).sameIo, fun _ => (exec_effect h).iotrace_of_ioDev⟩

/-! ## The step (R15) -/

/-- A word that the program holds at the pc is no end of the run. -/
theorem State.atEnd_eq_false {s : State} {w : Word} (h : s.prog[s.pc.toNat]? = some w) : s.atEnd = false := by
  obtain ⟨hlt, -⟩ := List.getElem?_eq_some_iff.1 h
  simp [State.atEnd, hlt.ne]

theorem State.fetch_eq_ok {s : State} {w : Word} (h : s.prog[s.pc.toNat]? = some w) : s.fetch = .ok w := by
  rw [State.fetch, h]

theorem State.fetchInstr_eq_ok {s : State} {w : Word} {i : Instr} (hw : s.prog[s.pc.toNat]? = some w)
    (hi : decode s.cfg w = .ok i) : s.fetchInstr = .ok i := by
  rw [State.fetchInstr, State.fetch_eq_ok hw]
  simp only [hi]

/-- A running machine that is not at its end performs the instruction it fetches. -/
theorem step_eq_exec {s : State} {i : Instr} (hwf : s.cfg.wf = true) (hrun : s.status = .running)
    (hend : s.atEnd = false) (hi : s.fetchInstr = .ok i) : step s = exec i s := by
  simp [step, hwf, hrun, hend, hi]

/-- Settles O8: a word at the pc means that the run is not at its end, so that word is fetched and decoded. -/
theorem stepRunsTheDecodedInstruction : Obligations.StepRunsTheDecodedInstruction := by
  intro s w i hwf hrun hw hi
  exact step_eq_exec hwf hrun (State.atEnd_eq_false hw) (State.fetchInstr_eq_ok hw hi)

/-! ## The widening of fields (R11, R76) -/

theorem toNat_ext_zext {n : Nat} (v : BitVec n) (h : n ≤ 64) : (ext .zext v).toNat = v.toNat :=
  BitVec.toNat_setWidth_of_le h

theorem toInt_ext_sext {n : Nat} (v : BitVec n) (h : n ≤ 64) : (ext .sext v).toInt = v.toInt :=
  BitVec.toInt_signExtend_of_le h

/-- Settles O38: neither widening loses a bit of a field that fits a word. -/
theorem fieldsAreWidenedByValue : Obligations.FieldsAreWidenedByValue :=
  fun _ v _ h => ⟨toNat_ext_zext v h, toInt_ext_sext v h⟩

end Sys2Proof.Machine
end

section
/-!
PROOFS for the statements of spec/10_state.md: the invariant (R21, R30, R31), the accepted configurations (R21, R24),
the register file with `nptr` and the destination fields (R22, R25), the pc (R27), the checks of register addresses and
devices (R21, R31), the terminal states (R35) and reset (R34).
-/

namespace Sys2Proof.Machine

/-! ## What a step can answer -/

/-- The six ways a step goes, in the order of its checks, each with its answer (R15, R35, R234). -/
inductive StepCase (s : State) : Result → Prop where
  | badConfig (wf : s.cfg.wf = false) : StepCase s (.refused .badConfiguration)
  | halted (wf : s.cfg.wf = true) (status : s.status = .halted) : StepCase s (.next s)
  | faulted (f : Fault) (wf : s.cfg.wf = true) (status : s.status = .faulted f) : StepCase s (.fault f)
  | ends (wf : s.cfg.wf = true) (status : s.status = .running) : StepCase s (.next s.halt)
  | noInstr (f : Fault) (wf : s.cfg.wf = true) (status : s.status = .running) (fetch : s.fetchInstr = .error f) :
      StepCase s (.fault f)
  | performs (i : Instr) (k : Result) (wf : s.cfg.wf = true) (status : s.status = .running) (answer : exec i s = k) :
      StepCase s k

theorem step_case (s : State) : StepCase s (step s) := by
  unfold step
  split
  next wf =>
    split
    next status => exact .halted wf status
    next f status => exact .faulted f wf status
    next status =>
      split
      next => exact .ends wf status
      next =>
        split
        next f fetch => exact .noInstr f wf status fetch
        next i _ => exact .performs i _ wf status rfl
  next wf => exact .badConfig (Bool.eq_false_of_not_eq_true wf)

theorem step_of_faulted {s : State} {f : Fault} (hwf : s.cfg.wf = true) (hs : s.status = .faulted f) :
    step s = .fault f := by
  simp [step, hwf, hs]

theorem step_of_badConfig {s : State} (hwf : s.cfg.wf = false) : step s = .refused .badConfiguration := by
  simp [step, hwf]

/-! ## What an instruction performs once its register fields are checked -/

/-- What instruction `i` does in state `s` after the check of its register fields: it goes on, or performs one of the
shared operations; with the device number it names, if it names one. -/
inductive Body (i : Instr) (s : State) : Result → Prop where
  /-- `jmp`, the branches and the ALU instructions (R100, R120) -/
  | goes (t : State) (io : ioDev i s = none) : Body i s (.next t)
  /-- `lw` and `lwi` (R161, R162) -/
  | loads (a : Word) (r : RegAddr) (io : ioDev i s = none) : Body i s (loadWord a r s)
  /-- `sw` and `swi` (R163, R164) -/
  | stores (a : Word) (r : RegAddr) (io : ioDev i s = none) : Body i s (storeWord a r s)
  /-- `call` (R181) -/
  | calls (j : BitVec 56) (io : ioDev i s = none) : Body i s (execCall j s)
  /-- `ret` (R182) -/
  | returns (io : ioDev i s = none) : Body i s (execRet s)
  /-- `lio` and `lioi` (R165, R166) -/
  | reads (dev : Word) (r q : RegAddr) (io : ioDev i s = some dev) : Body i s (readDevice dev r q s)
  /-- `sio` and `sioi` (R167, R168) -/
  | sends (dev : Word) (r : RegAddr) (io : ioDev i s = some dev) : Body i s (writeDevice dev r s)

/-- Every instruction first checks the register fields it uses (R80 step 4, R203); `jmp`, `call` and `ret` have none to
check. -/
theorem exec_eq_checkRegs (i : Instr) (s : State) :
    ∃ k, exec i s = checkRegs s (i.usedRegs s.cfg) k ∧ Body i s k := by
  cases i
  case lw | lwi => exact ⟨_, rfl, .loads _ _ rfl⟩
  case sw | swi => exact ⟨_, rfl, .stores _ _ rfl⟩
  case call => exact ⟨_, rfl, .calls _ rfl⟩
  case ret => exact ⟨_, rfl, .returns rfl⟩
  case lio | lioi => exact ⟨_, rfl, .reads _ _ _ rfl⟩
  case sio | sioi => exact ⟨_, rfl, .sends _ _ rfl⟩
  -- `jmp`, the branches and the ALU instructions
  all_goals exact ⟨_, rfl, .goes _ rfl⟩

/-- Past the check, an instruction gives a next state or a fault that is about no register address. -/
theorem Body.next_or_fault {i : Instr} {s : State} {k : Result} (h : Body i s k) :
    (∃ t, k = .next t) ∨ ∃ f, k = .fault f ∧ ∀ r, f ≠ .registerOutOfRange r := by
  cases h with
  | goes t => exact .inl ⟨t, rfl⟩
  | loads a =>
    rcases s.memRead_cases a with ⟨-, e⟩ | ⟨-, -, e⟩ | ⟨v, -, -, e⟩ <;> simp [loadWord, orRaise, raise, e]
  | stores a r =>
    rcases s.memWrite_cases a (s.readReg r) with ⟨-, e⟩ | ⟨-, e⟩ <;> simp [storeWord, orRaise, raise, e]
  | calls => rcases s.push_cases s.savedPc with ⟨-, e⟩ | ⟨-, e⟩ <;> simp [execCall, orRaise, raise, e]
  | returns => rcases s.pop_cases with ⟨-, e⟩ | ⟨-, -, e⟩ | ⟨v, -, -, e⟩ <;> simp [execRet, orRaise, raise, e]
  | reads dev => rcases s.ioRead_cases dev with ⟨-, e⟩ | ⟨-, e⟩ <;> simp [readDevice, orRaise, raise, e]
  | sends dev r =>
    rcases s.ioWrite_cases dev (s.readReg r) s.sioControl with ⟨-, e⟩ | ⟨-, e⟩ <;>
      simp [writeDevice, orRaise, raise, e]

/-- Past the check, an instruction that names a device that does not answer raises `NoDevice` (R31). -/
theorem Body.noDevice {i : Instr} {s : State} {k : Result} {dev : Word} (h : Body i s k) (hdev : ioDev i s = some dev)
    (hno : s.cfg.devices.answers dev = false) : k = .fault (.noDevice dev) := by
  cases h with
  | goes _ io | loads _ _ io | stores _ _ io | calls _ io | returns io => rw [hdev] at io; cases io
  | reads dev' _ _ io =>
    obtain rfl : dev = dev' := Option.some.inj (hdev.symm.trans io)
    simp [readDevice, State.ioRead, orRaise, raise, hno]
  | sends dev' _ io =>
    obtain rfl : dev = dev' := Option.some.inj (hdev.symm.trans io)
    simp [writeDevice, State.ioWrite, orRaise, raise, hno]

theorem exec_ne_refused (i : Instr) (s : State) (r : Refusal) : exec i s ≠ .refused r := by
  intro h
  obtain ⟨k, he, hb⟩ := exec_eq_checkRegs i s
  obtain rfl : k = .refused r := checkRegs_eq_refused (he ▸ h)
  rcases hb.next_or_fault with ⟨t, ht⟩ | ⟨f, hf, -⟩
  · cases ht
  · cases hf

/-! ## What an instruction leaves alone -/

@[simp] theorem State.writePair_pc (s : State) (r q : RegAddr) (a : IoAnswer) (b : Bool) :
    (s.writePair r q a b).pc = s.pc := by
  obtain ⟨h, -⟩ := s.writePair_fields r q a b
  exact h

@[simp] theorem State.writePair_mem (s : State) (r q : RegAddr) (a : IoAnswer) (b : Bool) :
    (s.writePair r q a b).mem = s.mem := by
  obtain ⟨-, h, -⟩ := s.writePair_fields r q a b
  exact h

@[simp] theorem State.writePair_cfg (s : State) (r q : RegAddr) (a : IoAnswer) (b : Bool) :
    (s.writePair r q a b).cfg = s.cfg := by
  obtain ⟨-, -, -, -, -, h, -⟩ := s.writePair_fields r q a b
  exact h

theorem Effect.cfg_eq {i : Instr} {s t : State} (h : Effect i s t) : t.cfg = s.cfg := by
  cases h with
  | jumps _ next | writes _ _ next | stores _ _ next | reads _ _ _ _ next | sends _ _ _ next | calls _ _ next
  | returns _ _ _ next => simp [next]

/-- The IO reads' two writes touch their two registers only. -/
theorem State.readReg_writePair_of_notMem (s : State) {r q p : RegAddr} (a : IoAnswer) (b : Bool) (h : p ∉ [r, q]) :
    (s.writePair r q a b).readReg p = s.readReg p := by
  obtain ⟨hr, hq⟩ : p ≠ r ∧ p ≠ q := by simpa using h
  unfold State.writePair
  split
  · exact s.readReg_writeReg_ne hr _
  · rw [State.readReg_writeReg_ne _ hq, State.readReg_writeReg_ne _ hr]

/-- R25: the registers outside the destination list read as before. -/
theorem Effect.sameRegsBut {i : Instr} {s t : State} (h : Effect i s t) : SameRegsBut (destRegs s.cfg i) s t := by
  intro p hp
  cases h with
  | jumps _ next | stores _ _ next | sends _ _ _ next => simp [next]
  | writes d v next _ dest | calls _ _ next _ dest | returns _ _ _ next _ dest =>
    simp [next, State.readReg_writeReg_ne _ (List.mem_singleton.not.1 (dest ▸ hp))]
  | reads dev r q _ next _ dest => simp [next, State.readReg_writePair_of_notMem _ _ _ (dest ▸ hp)]

/-- R27: without a transfer of control, the next address. -/
theorem Effect.pc_eq {i : Instr} {s t : State} (h : Effect i s t) (hctl : transfersControl i = false) :
    t.pc = s.pc + Config.pcStep := by
  cases h with
  | jumps _ _ ctl | calls _ _ _ ctl | returns _ _ _ _ ctl => rw [hctl] at ctl; cases ctl
  | writes _ _ next | stores _ _ next | reads _ _ _ _ next | sends _ _ _ next => simp [next]

/-! ## Register 0 (R22) -/

/-- `NPTR_ZERO` decides whether register 0 is hard-wired. -/
theorem State.isNptr_zero (s : State) : s.isNptr 0 = s.cfg.nptrZero := by
  simp [State.isNptr]

/-- Under `NPTR_ZERO` no register write reaches entry 0 of the register file. -/
theorem State.writeReg_regs_zero {s : State} (h : s.cfg.nptrZero = true) (r : RegAddr) (v : Word) :
    (s.writeReg r v).regs[0] = s.regs[0] := by
  unfold State.writeReg
  split
  · rfl
  next hr =>
    have hne : r.toNat ≠ 0 := fun h0 => hr (by simp [State.isNptr, h, BitVec.eq_of_toNat_eq (y := 0#8) h0])
    simp [hne]

theorem State.writePair_regs_zero {s : State} (h : s.cfg.nptrZero = true) (r q : RegAddr) (a : IoAnswer) (b : Bool) :
    (s.writePair r q a b).regs[0] = s.regs[0] := by
  unfold State.writePair
  split
  · exact State.writeReg_regs_zero h r _
  · rw [State.writeReg_regs_zero (by simpa using h), State.writeReg_regs_zero h]

theorem Effect.regs_zero {i : Instr} {s t : State} (h : Effect i s t) (hz : s.cfg.nptrZero = true) :
    t.regs[0] = s.regs[0] := by
  cases h with
  | jumps _ next | stores _ _ next | sends _ _ _ next => simp [next]
  | writes _ _ next | calls _ _ next | returns _ _ _ next => simp [next, State.writeReg_regs_zero, hz]
  | reads _ _ _ _ next => simp [next, State.writePair_regs_zero, hz]

/-! ## The data memory of the invariant (R30, R40, R44) -/

/-- The clauses of `State.Inv` about data memory. -/
structure Memory.Ok (c : Config) (m : Memory) : Prop where
  canonical : Memory.wf c.memFill m
  inside : ∀ x ∈ m, x.1 < 8 * c.memWords
  wholeWords : ∀ a, (∀ k < 8, m.readByte c.memFill (8 * a + k) ≠ none) ∨
    (∀ k < 8, m.readByte c.memFill (8 * a + k) = none)

theorem State.Inv.memOk {s : State} (h : s.Inv) : Memory.Ok s.cfg s.mem :=
  ⟨h.canonical, h.inside, h.wholeWords⟩

/-- A word written inside the bounds: its own eight cells all hold bytes, those of another word read as before. -/
theorem Memory.Ok.writeWord {c : Config} {m : Memory} {a : Nat} (h : Memory.Ok c m) (ha : a < c.memWords) (v : Word) :
    Memory.Ok c (m.writeWord c.memFill a v) where
  canonical := Memory.wf_writeWord a v h.canonical
  inside x hx := by
    rcases Memory.mem_writeWord hx with ⟨-, hlt⟩ | hx
    · omega
    · exact h.inside x hx
  wholeWords b := by
    have hdiv {k : Nat} (hk : k < 8) : (8 * b + k) / 8 = b := by omega
    by_cases hb : b = a
    · refine .inl fun k hk => ?_
      rw [Memory.readByte_writeWord, hdiv hk, if_pos hb]
      exact Option.some_ne_none _
    · have hsame {k : Nat} (hk : k < 8) : (m.writeWord c.memFill a v).readByte c.memFill (8 * b + k) =
          m.readByte c.memFill (8 * b + k) := by
        rw [Memory.readByte_writeWord, hdiv hk, if_neg hb]
      exact (h.wholeWords b).imp (fun hw k hk => hsame hk ▸ hw k hk) fun hw k hk => hsame hk ▸ hw k hk

theorem Effect.memOk {i : Instr} {s t : State} (h : Effect i s t) (hm : Memory.Ok s.cfg s.mem) :
    Memory.Ok s.cfg t.mem := by
  cases h with
  | jumps _ next | writes _ _ next | reads _ _ _ _ next | sends _ _ _ next | returns _ _ _ next => simpa [next] using hm
  | stores _ v next bound => simpa [next] using hm.writeWord bound v
  | calls _ bound next => simpa [next] using hm.writeWord bound s.savedPc

/-! ## The invariant -/

/-- An entry added to the trace names a device that answers (R31). -/
theorem Effect.devices {i : Instr} {s t : State} (h : Effect i s t)
    (hs : ∀ e ∈ s.iotrace, s.cfg.devices.answers e.dev = true) :
    ∀ e ∈ t.iotrace, s.cfg.devices.answers e.dev = true := by
  cases h with
  | jumps _ next | writes _ _ next | stores _ _ next | calls _ _ next | returns _ _ _ next => simpa [next] using hs
  | reads _ _ _ answers next | sends _ _ answers next =>
    intro e he
    simp only [next, State.advance_iotrace, State.writePair_iotrace, State.dropAnswer_iotrace, State.recordIo_iotrace,
      List.mem_append, List.mem_singleton] at he
    rcases he with he | rfl
    · exact hs e he
    · exact answers

theorem Effect.inv {i : Instr} {s t : State} (h : Effect i s t) (hs : s.Inv) : t.Inv := by
  have hmem : Memory.Ok t.cfg t.mem := h.cfg_eq ▸ h.memOk hs.memOk
  exact {
    config := h.cfg_eq ▸ hs.config
    canonical := hmem.canonical
    inside := hmem.inside
    wholeWords := hmem.wholeWords
    nptr := fun hz => by
      rw [h.cfg_eq] at hz
      rw [h.regs_zero hz, hs.nptr hz]
    devices := h.cfg_eq ▸ h.devices hs.devices }

/-- The invariant says nothing of the status. -/
theorem State.Inv.halt {s : State} (h : s.Inv) : s.halt.Inv :=
  ⟨h.config, h.canonical, h.inside, h.wholeWords, h.nptr, h.devices⟩

/-- Settles O13: a step that answers a state leaves it, halts it or performs an instruction, and each of the seven
shapes of an instruction's next state keeps every clause. -/
theorem everyStepKeepsTheInvariant : Obligations.EveryStepKeepsTheInvariant := by
  intro s t hs h
  have hc : StepCase s (.next t) := h ▸ step_case s
  cases hc with
  | halted => exact hs
  | ends => exact hs.halt
  | performs i _ _ _ he => exact (exec_effect he).inv hs

/-! ## The accepted configurations (R21, R24) -/

theorem Config.wf_iff (c : Config) : c.wf = true ↔
    1 ≤ c.nreg ∧ c.nreg ≤ 256 ∧ c.regMem ≠ c.regSp ∧ c.regMem ≠ 0 ∧ c.regSp ≠ 0 ∧
      c.regMem.toNat < c.nreg ∧ c.regSp.toNat < c.nreg := by
  simp [Config.wf, and_assoc]

theorem step_refused_iff (s : State) : (∃ r, step s = .refused r) ↔ s.cfg.wf = false := by
  constructor
  · rintro ⟨r, h⟩
    have hc : StepCase s (.refused r) := h ▸ step_case s
    cases hc with
    | badConfig wf => exact wf
    | performs i _ _ _ he => exact absurd he (exec_ne_refused i s r)
  · exact fun h => ⟨_, step_of_badConfig h⟩

/-- Settles O11: the step looks at the configuration first, and no instruction is refused. -/
theorem onlyBadConfigurationsAreRefused : Obligations.OnlyBadConfigurationsAreRefused := by
  intro s
  rw [step_refused_iff, ← Config.wf_iff, Bool.not_eq_true]

/-! ## Rules over all instructions (R22, R25, R27) -/

/-- Settles O16: each shape of a next state writes the registers of its destination list only. -/
theorem onlyDestinationRegistersAreWritten : Obligations.OnlyDestinationRegistersAreWritten :=
  fun _ _ _ h => (exec_effect h).sameRegsBut

/-- Settles O19: the shapes that do not set the pc advance it by `PC_STEP`, in 64 bits. -/
theorem otherInstructionsGoToTheNextAddress : Obligations.OtherInstructionsGoToTheNextAddress := by
  intro i s t h hctl
  rw [(exec_effect h).pc_eq hctl, BitVec.toNat_add]
  rfl

/-- Settles O20: `NPTR_ZERO` is a parameter no instruction changes, and under it no register write reaches entry 0. -/
theorem nptrReadsZeroAndDiscardsWrites : Obligations.NptrReadsZeroAndDiscardsWrites := by
  have reads_zero {s : State} (hz : s.cfg.nptrZero = true) : s.readReg 0 = 0 :=
    State.readReg_of_isNptr (s.isNptr_zero.trans hz)
  refine ⟨fun _ => rfl, fun s hz => ⟨reads_zero hz, fun i t h => ?_⟩, fun s v hz => ?_⟩
  · have he := exec_effect h
    exact ⟨reads_zero (he.cfg_eq ▸ hz), he.regs_zero hz⟩
  · rw [State.readReg_writeReg_same, s.isNptr_zero, hz]
    rfl

/-! ## Register addresses and devices (R21, R31) -/

theorem Config.not_validReg (c : Config) (r : RegAddr) : (!c.validReg r) = decide (c.nreg ≤ r.toNat) := by
  simp [Config.validReg, ← decide_not]

theorem Config.validReg_of_nreg_eq {c : Config} (h : c.nreg = 256) (r : RegAddr) : c.validReg r = true := by
  simpa [Config.validReg, h] using r.isLt

/-- Settles O21: every instruction is its register check followed by what never raises the check's fault; with 256
registers the check passes. -/
theorem invalidRegisterAddressesFault : Obligations.InvalidRegisterAddressesFault := by
  refine ⟨fun i s r hr => ?_, fun i s r h256 h => ?_⟩
  · obtain ⟨k, he, -⟩ := exec_eq_checkRegs i s
    simp only [← Config.not_validReg] at hr
    rw [he, checkRegs_of_find hr]
  · obtain ⟨k, he, hb⟩ := exec_eq_checkRegs i s
    rw [he, checkRegs_of_valid k fun x _ => Config.validReg_of_nreg_eq h256 x] at h
    rcases hb.next_or_fault with ⟨t, ht⟩ | ⟨f, hf, hne⟩
    · rw [h] at ht; cases ht
    · rw [h] at hf; cases hf; exact hne r rfl

/-- Settles O45: the register check passes, and what follows it asks the device first. -/
theorem unansweredDevicesFault : Obligations.UnansweredDevicesFault := by
  intro s i dev hwf hdev hno
  obtain ⟨k, he, hb⟩ := exec_eq_checkRegs i s
  rw [he, checkRegs_of_valid k (List.all_eq_true.1 hwf), hb.noDevice hdev hno]

/-! ## Terminal states (R35, R200) -/

theorem State.settle_of_fault {s : State} {f : Fault} (h : step s = .fault f) : s.settle = s.faultedBy f := by
  rw [State.settle, h]

theorem State.faultedBy_of_faulted {s : State} {f : Fault} (h : s.status = .faulted f) : s.faultedBy f = s := by
  rw [State.faultedBy, ← h]

/-- A step that faults has accepted the configuration. -/
theorem wf_of_step_eq_fault {s : State} {f : Fault} (h : step s = .fault f) : s.cfg.wf = true := by
  by_contra hwf
  rw [step_of_badConfig (Bool.eq_false_of_not_eq_true hwf)] at h
  cases h

/-- A machine that is not running stays as it is: halted, faulted or refused. -/
theorem State.settle_of_not_running {s : State} (h : s.status ≠ .running) : s.settle = s := by
  have hc := step_case s
  rw [State.settle]
  generalize step s = k at hc
  cases hc with
  | badConfig | halted => rfl
  | faulted f _ status => exact State.faultedBy_of_faulted status
  | ends _ status | noInstr _ _ status | performs _ _ _ status => exact absurd status h

/-- Settles O10: a fault leads to `State.faultedBy`, which changes the status only, and a faulted state answers its
fault again. -/
theorem terminalStatesAreNeverLeft : Obligations.TerminalStatesAreNeverLeft := by
  refine ⟨fun s f h _ => ?_, fun s => State.settle_of_not_running⟩
  have hwf : s.cfg.wf = true := wf_of_step_eq_fault h
  rw [State.settle_of_fault h]
  exact ⟨rfl, rfl, fun _ _ => rfl, fun _ => rfl, ⟨rfl, rfl, rfl⟩, step_of_faulted (s := s.faultedBy f) hwf rfl⟩

/-! ## Reset (R34, R230) -/

/-- An empty memory under the default parameters holds no value in any cell (R30). -/
theorem State.reset_byteAt (k : Nat) : State.reset.byteAt k = none := rfl

theorem State.reset_wordAt (a : Word) : State.reset.wordAt a = none := rfl

/-- Under the default parameters register 0 is `nptr`. -/
theorem State.reset_readReg_zero : State.reset.readReg 0 = 0 := State.readReg_of_isNptr rfl

/-- Settles O12: nothing has been written to memory, which has no reset value by default, and register 0 is `nptr`. -/
theorem resetLeavesTheTabulatedState : Obligations.ResetLeavesTheTabulatedState :=
  ⟨rfl, State.reset_readReg_zero, State.reset_byteAt, State.reset_wordAt, rfl, rfl⟩

/-- Settles O14: nothing is listed in memory or in the trace, and every register holds 0 (log entry 1). -/
theorem resetSatisfiesTheInvariant : Obligations.ResetSatisfiesTheInvariant where
  config := by decide
  canonical := State.reset_mem_wf
  inside := fun _ hx => nomatch hx
  wholeWords := fun a => .inr fun k _ => State.reset_byteAt (8 * a + k)
  nptr := fun _ => Vector.getElem_replicate (by omega)
  devices := fun _ he => nomatch he

end Sys2Proof.Machine
end

section
/-!
PROOFS for the statements of spec/20_memory.md: what a step leaves of the program store (R49), which instructions write
data memory and where (R40, R41, R45), and that a stored word loads back (R41, R43, R235).
-/

namespace Sys2Proof.Machine

/-! ## The program store (R49) -/

@[simp] theorem State.writePair_prog (s : State) (r q : RegAddr) (a : IoAnswer) (b : Bool) :
    (s.writePair r q a b).prog = s.prog := by
  obtain ⟨-, -, -, -, h, -⟩ := s.writePair_fields r q a b
  exact h

theorem Effect.prog_eq {i : Instr} {s t : State} (h : Effect i s t) : t.prog = s.prog := by
  cases h with
  | jumps _ next | writes _ _ next | stores _ _ next | reads _ _ _ _ next | sends _ _ _ next | calls _ _ next
  | returns _ _ _ next => simp [next]

/-- A step that answers a state leaves it, halts it or performs an instruction: none of them touches what fetch and
decode read. -/
theorem prog_and_cfg_of_step {s t : State} (h : step s = .next t) : t.prog = s.prog ∧ t.cfg = s.cfg := by
  have hc : StepCase s (.next t) := h ▸ step_case s
  cases hc with
  | halted => exact ⟨rfl, rfl⟩
  | ends => exact ⟨s.halt_prog, s.halt_cfg⟩
  | performs _ _ _ _ he => exact ⟨(exec_effect he).prog_eq, (exec_effect he).cfg_eq⟩

/-- Fetch and decode read the program store, the parameters and the pc, and nothing else of the state. -/
theorem State.fetchInstr_congr {s t : State} (hprog : t.prog = s.prog) (hcfg : t.cfg = s.cfg) (hpc : t.pc = s.pc) :
    t.fetchInstr = s.fetchInstr := by
  simp only [State.fetchInstr, State.fetch, hprog, hcfg, hpc]

/-- Settles O15: a step keeps the program store and the parameters, and at a given pc fetch reads only those. -/
theorem storesAreNeverSeenByFetch : Obligations.StoresAreNeverSeenByFetch := by
  intro s t h
  obtain ⟨hprog, hcfg⟩ := prog_and_cfg_of_step h
  exact ⟨hprog, hcfg, fun _ => State.fetchInstr_congr hprog hcfg rfl⟩

/-! ## Writes to data memory (R40, R41, R45) -/

@[simp] theorem State.writePair_byteAt (s : State) (r q : RegAddr) (a : IoAnswer) (b : Bool) (k : Nat) :
    (s.writePair r q a b).byteAt k = s.byteAt k := by
  simp [State.byteAt]

/-- An instruction without a store address leaves every byte of memory alone. -/
theorem Effect.sameMem {i : Instr} {s t : State} (h : Effect i s t) (hstore : storeAddr i s = none) :
    SameMem s t := by
  intro k
  cases h with
  | jumps _ next | writes _ _ next | reads _ _ _ _ next | sends _ _ _ next | returns _ _ _ next => simp [next]
  | stores _ _ _ _ _ _ store | calls _ _ _ _ _ store => rw [hstore] at store; cases store

/-- An instruction with the store address `a` leaves a value in the word at `a`, and the bytes outside it alone. -/
theorem Effect.stores_at {i : Instr} {s t : State} {a : Word} (h : Effect i s t) (hstore : storeAddr i s = some a) :
    SameMemOutside a s t ∧ ∃ v, t.wordAt a = some v := by
  cases h with
  | jumps _ _ _ _ store | writes _ _ _ _ _ store | reads _ _ _ _ _ _ _ store | sends _ _ _ _ _ _ store
  | returns _ _ _ _ _ _ store => rw [hstore] at store; cases store
  | stores a' v next _ _ _ store =>
    obtain rfl : a = a' := Option.some.inj (hstore.symm.trans store)
    subst next
    exact ⟨fun _ hk => s.byteAt_writeWord_outside a v hk, v, s.wordAt_writeWord a v⟩
  | calls _ _ next _ _ store =>
    obtain rfl : a = s.pushAddr := Option.some.inj (hstore.symm.trans store)
    subst next
    refine ⟨fun k hk => ?_, s.savedPc, ?_⟩
    · rw [State.setPc_byteAt, State.writeReg_byteAt]
      exact s.byteAt_writeWord_outside s.pushAddr s.savedPc hk
    · rw [State.setPc_wordAt, State.writeReg_wordAt]
      exact s.wordAt_writeWord s.pushAddr s.savedPc

/-- Settles O17: of the seven shapes of a next state, the two that write memory write one word, at the store address. -/
theorem onlyStoresAndCallsWriteMemory : Obligations.OnlyStoresAndCallsWriteMemory := by
  intro i s t h
  exact ⟨(exec_effect h).sameMem, fun _ => (exec_effect h).stores_at⟩

/-! ## A load after a store (R41, R43, R235) -/

theorem exec_lw_eq_next {m r : RegAddr} {a : BitVec 32} {s t : State} :
    exec (.lw m a r) s = .next t ↔
      (∀ x ∈ [m, r], s.cfg.validReg x = true) ∧ loadWord (s.baseAddr m a) r s = .next t :=
  checkRegs_eq_next

theorem exec_lwi_eq_next {r : RegAddr} {a : BitVec 32} {s t : State} :
    exec (.lwi a r) s = .next t ↔ (∀ x ∈ [r], s.cfg.validReg x = true) ∧ loadWord (s.directAddr a) r s = .next t :=
  checkRegs_eq_next

theorem exec_sw_eq_next {m r : RegAddr} {a : BitVec 32} {s t : State} :
    exec (.sw m a r) s = .next t ↔
      (∀ x ∈ [m, r], s.cfg.validReg x = true) ∧ storeWord (s.baseAddr m a) r s = .next t :=
  checkRegs_eq_next

theorem exec_swi_eq_next {r : RegAddr} {a : BitVec 32} {s t : State} :
    exec (.swi a r) s = .next t ↔ (∀ x ∈ [r], s.cfg.validReg x = true) ∧ storeWord (s.directAddr a) r s = .next t :=
  checkRegs_eq_next

/-- A store keeps the parameters and every register, so the addresses computed from them stay the same. -/
theorem storeWord_keeps {a : Word} {r : RegAddr} {s t : State} (h : storeWord a r s = .next t) :
    t.cfg = s.cfg ∧ (∀ m imm, t.baseAddr m imm = s.baseAddr m imm) ∧ ∀ imm, t.directAddr imm = s.directAddr imm := by
  obtain ⟨-, rfl⟩ := storeWord_eq_next.1 h
  exact ⟨rfl, fun _ _ => rfl, fun _ => rfl⟩

/-- The load of the word just stored finds the address in range and the stored value in the word. -/
theorem loadWord_of_storeWord {a : Word} {r : RegAddr} {s t : State} (h : storeWord a r s = .next t) (d : RegAddr) :
    ∃ u, loadWord a d t = .next u ∧ Holds t u d (s.readReg r) := by
  obtain ⟨bound, rfl⟩ := storeWord_eq_next.1 h
  refine ⟨_, loadWord_eq_next.2 ⟨s.readReg r, bound, s.wordAt_writeWord a (s.readReg r), rfl⟩, ?_⟩
  exact State.readReg_writeReg_same _ d (s.readReg r)

/-- Settles O42: after the store the load passes its register check and computes the store's address, and there it
finds the word. -/
theorem storedWordsLoadBackUnchanged : Obligations.StoredWordsLoadBackUnchanged := by
  refine ⟨fun s t m a r d h hd => ?_, fun s t a r d h hd => ?_⟩
  · obtain ⟨valid, store⟩ := exec_sw_eq_next.1 h
    obtain ⟨hcfg, hbase, -⟩ := storeWord_keeps store
    obtain ⟨u, load, hu⟩ := loadWord_of_storeWord store d
    have hm : s.cfg.validReg m = true := valid m (by simp)
    exact ⟨u, exec_lw_eq_next.2 ⟨by simp [hcfg, hm, hd], hbase m a ▸ load⟩, hu⟩
  · obtain ⟨-, store⟩ := exec_swi_eq_next.1 h
    obtain ⟨hcfg, -, hdirect⟩ := storeWord_keeps store
    obtain ⟨u, load, hu⟩ := loadWord_of_storeWord store d
    exact ⟨u, exec_lwi_eq_next.2 ⟨by simp [hcfg, hd], hdirect a ▸ load⟩, hu⟩

end Sys2Proof.Machine
end

section
/-!
PROOFS for the statements of spec/30_encoding.md: a word and the row of R75 that reads it, the round trips of decoding
and encoding (R62 to R73), the undefined opcodes (R77), the reserved encodings (R78) and the words the assembler
writes (R80 to R83).
-/

namespace Sys2Proof

open Claims

/-! ## The row that reads a word (R75, R80) -/

/-- The row of R75 with a given opcode byte. -/
def rowAt (op : Byte) : Option OpRow :=
  opTable.find? fun row => row.opcode == op

theorem rowOf_eq_rowAt (w : Word) : rowOf w = rowAt (opField w) := rfl

theorem opField_of_rowOf {w : Word} {row : OpRow} (h : rowOf w = some row) : opField w = row.opcode :=
  (eq_of_beq (List.find?_some (p := fun row : OpRow => row.opcode == opField w) h)).symm

theorem mem_opTable_of_rowOf {w : Word} {row : OpRow} (h : rowOf w = some row) : row ∈ opTable :=
  List.mem_of_find?_eq_some h

/-- In the row that reads the word, the masked comparison asks for the documented-zero fields only (R78). -/
theorem masked_eq_matchValue_iff {w : Word} {row : OpRow} (h : rowOf w = some row) :
    w &&& row.format.mask = row.matchValue ↔ row.format.zeroFields w :=
  (masked_eq_iff row.format w row.opcode).trans (and_iff_right (opField_of_rowOf h))

theorem decode_of_zeroFields (c : Config) {w : Word} {row : OpRow} (h : rowOf w = some row)
    (hz : row.format.zeroFields w) : decode c w = .ok (row.build w) := by
  simp [decode, h, (masked_eq_matchValue_iff h).2 hz]

theorem decode_of_not_strict {c : Config} {w : Word} {row : OpRow} (h : rowOf w = some row)
    (hs : c.strictDecode = false) : decode c w = .ok (row.build w) := by
  simp [decode, h, hs]

theorem decode_of_not_zeroFields {c : Config} {w : Word} {row : OpRow} (h : rowOf w = some row)
    (hs : c.strictDecode = true) (hz : ¬ row.format.zeroFields w) : decode c w = .error (.reservedEncoding w) := by
  simp [decode, h, hs, (masked_eq_matchValue_iff h).not.2 hz]

/-- Under strict decoding the decoder answers an instruction for a word whose documented-zero fields are zero, and it
is the one its row builds. -/
theorem strict_decode_eq_ok {c : Config} {w : Word} {i : Instr} (hs : c.strictDecode = true) (h : decode c w = .ok i) :
    ∃ row, rowOf w = some row ∧ row.format.zeroFields w ∧ row.build w = i := by
  rcases decode_cases c w with ⟨-, e⟩ | ⟨row, -, -, -, e⟩ | ⟨row, hrow, hm, e⟩
  · rw [e] at h; cases h
  · rw [e] at h; cases h
  · rw [e] at h; cases h
    exact ⟨row, hrow, (masked_eq_matchValue_iff hrow).1 (hm hs), rfl⟩

theorem decode_eq_illegal_iff (c : Config) (w : Word) :
    decode c w = .error (.illegalInstruction w) ↔ rowAt (opField w) = none := by
  rcases decode_cases c w with ⟨h, e⟩ | ⟨row, h, -, -, e⟩ | ⟨row, h, -, e⟩ <;>
    simp [e, ← rowOf_eq_rowAt, h]

/-! ## Decoding a packed word, once for each format (R63 to R73) -/

section Packed
variable (c : Config) {op : Byte}

/-- A word with the opcode of a row and zeros in the row's documented-zero fields decodes to what the row
builds of it. -/
theorem decode_eq_ok {w : Word} {row : OpRow} {i : Instr} (h : rowAt op = some row)
    (hop : opField w = op) (hz : row.format.zeroFields w) (hb : row.build w = i) : decode c w = .ok i := by
  have hrow : rowOf w = some row := by rw [rowOf_eq_rowAt, hop, h]
  rw [decode_of_zeroFields c hrow hz, hb]

theorem decode_packed_J {mk : BitVec 56 → Instr} (h : rowAt op = some (rowJ op mk)) (j : BitVec 56) :
    decode c (packJump op j) = .ok (mk j) :=
  decode_eq_ok c h (opField_packJump ..) trivial (by simp [rowJ])

theorem decode_packed_B {mk : RegAddr → RegAddr → BitVec 32 → Instr} (h : rowAt op = some (rowB op mk))
    (r q : RegAddr) (d : BitVec 32) : decode c (packBytes op r q 0 d) = .ok (mk r q d) :=
  decode_eq_ok c h (opField_packBytes ..) (b4Field_packBytes ..) (by simp [rowB])

theorem decode_packed_BI {mk : RegAddr → BitVec 32 → BitVec 16 → Instr} (h : rowAt op = some (rowBI op mk))
    (r : RegAddr) (v : BitVec 32) (d : BitVec 16) : decode c (packShort op r d v) = .ok (mk r v d) :=
  decode_eq_ok c h (opField_packShort ..) trivial (by simp [rowBI])

theorem decode_packed_R3 {mk : RegAddr → RegAddr → RegAddr → Instr} (h : rowAt op = some (rowR3 op mk))
    (r q d : RegAddr) : decode c (packBytes op r q d 0) = .ok (mk r q d) :=
  decode_eq_ok c h (opField_packBytes ..) (imm32Field_packBytes ..) (by simp [rowR3])

theorem decode_packed_R2 {mk : RegAddr → RegAddr → Instr} (h : rowAt op = some (rowR2 op mk)) (r d : RegAddr) :
    decode c (packBytes op r 0 d 0) = .ok (mk r d) :=
  decode_eq_ok c h (opField_packBytes ..) ⟨b3Field_packBytes .., imm32Field_packBytes ..⟩ (by simp [rowR2])

theorem decode_packed_I {mk : RegAddr → BitVec 32 → RegAddr → Instr} (h : rowAt op = some (rowI op mk))
    (r : RegAddr) (v : BitVec 32) (d : RegAddr) : decode c (packBytes op r 0 d v) = .ok (mk r v d) :=
  decode_eq_ok c h (opField_packBytes ..) (b3Field_packBytes ..) (by simp [rowI])

theorem decode_packed_SH {mk : RegAddr → BitVec 8 → RegAddr → Instr} (h : rowAt op = some (rowSH op mk))
    (r : RegAddr) (n : BitVec 8) (d : RegAddr) : decode c (packBytes op r 0 d (n.setWidth 32)) = .ok (mk r n d) :=
  decode_eq_ok c h (opField_packBytes ..) (b3Field_packBytes ..) (by simp [rowSH])

theorem decode_packed_M {mk : RegAddr → BitVec 32 → RegAddr → Instr} (h : rowAt op = some (rowM op mk))
    (m : RegAddr) (v : BitVec 32) (r : RegAddr) : decode c (packBytes op m 0 r v) = .ok (mk m v r) :=
  decode_eq_ok c h (opField_packBytes ..) (b3Field_packBytes ..) (by simp [rowM])

theorem decode_packed_MI {mk : BitVec 32 → RegAddr → Instr} (h : rowAt op = some (rowMI op mk))
    (v : BitVec 32) (r : RegAddr) : decode c (packBytes op 0 0 r v) = .ok (mk v r) :=
  decode_eq_ok c h (opField_packBytes ..) ⟨b2Field_packBytes .., b3Field_packBytes ..⟩ (by simp [rowMI])

theorem decode_packed_IO {mk : BitVec 32 → RegAddr → RegAddr → Instr} (h : rowAt op = some (rowIO op mk))
    (v : BitVec 32) (r q : RegAddr) : decode c (packBytes op 0 r q v) = .ok (mk v r q) :=
  decode_eq_ok c h (opField_packBytes ..) (b2Field_packBytes ..) (by simp [rowIO])

theorem decode_packed_N {i : Instr} (h : rowAt op = some (rowN op i)) : decode c (packBytes op 0 0 0 0) = .ok i :=
  decode_eq_ok c h (opField_packBytes ..) ((imm56Field_eq_zero _).2 (by simp)) rfl

/-- Instruction by instruction: `encode` packs the operands in the layout of the row that stands at its opcode. -/
theorem decode_encode (i : Instr) : decode c (encode i) = .ok i := by
  cases i
  case jmp | call => exact decode_packed_J c rfl _
  case beq | bneq | bl | bleq | bg | bgeq => exact decode_packed_B c rfl _ _ _
  case beqi | bneqi | bli | bleqi | bgi | bgeqi => exact decode_packed_BI c rfl _ _ _
  case add | sub | mul | and | or | xor | xnor | nor | ceq | clt | clte | shr | shl | rr | rl =>
    exact decode_packed_R3 c rfl _ _ _
  case not => exact decode_packed_R2 c rfl _ _
  case addi | subi | muli | andi | ori | xori | xnori | nori | ceqi | clti | cltei =>
    exact decode_packed_I c rfl _ _ _
  case shri | shli | rri | rli => exact decode_packed_SH c rfl _ _ _
  case lw | sw | sio => exact decode_packed_M c rfl _ _ _
  case lwi | swi | sioi => exact decode_packed_MI c rfl _ _
  case lio | lioi => exact decode_packed_IO c rfl _ _ _
  case ret => exact decode_packed_N c rfl

end Packed

/-- Settles O1: every format reads back the operands its layout packs, and its documented-zero fields are zero. -/
theorem decodingAnEncodedInstructionGivesItBack : Obligations.DecodingAnEncodedInstructionGivesItBack :=
  decode_encode

/-! ## Packing the fields of a word again -/

theorem packBytes_eq_iff {w : Word} {o b c d : Byte} {v : BitVec 32} :
    packBytes o b c d v = w ↔
      o = opField w ∧ b = b2Field w ∧ c = b3Field w ∧ d = b4Field w ∧ v = imm32Field w := by
  conv_lhs => rw [← packBytes_fields w]
  exact packBytes_inj

theorem packJump_fields (w : Word) : packJump (opField w) (imm56Field w) = w :=
  BitVec.extractLsb'_append_extractLsb'

theorem packShort_fields (w : Word) : packShort (opField w) (b2Field w) (imm16Field w) (imm32Field w) = w := by
  rw [packShort, opField, b2Field, imm16Field, imm32Field,
    BitVec.extractLsb'_append_extractLsb'_eq_extractLsb' (by rfl),
    BitVec.extractLsb'_append_extractLsb'_eq_extractLsb' (by rfl)]
  exact BitVec.extractLsb'_append_extractLsb'

/-- The amount of format SH is the low byte of the last four (R69). -/
theorem setWidth_imm8Field (w : Word) : (imm8Field w).setWidth 32 = imm32Field w &&& 0xFF := by
  apply BitVec.eq_of_toNat_eq
  have hlow : (imm32Field w).toNat &&& 255 = (imm32Field w).toNat % 2 ^ 8 := Nat.and_two_pow_sub_one_eq_mod _ 8
  rw [BitVec.toNat_and, show (0xFF : BitVec 32).toNat = 255 from rfl, hlow]
  simp only [imm8Field, imm32Field, BitVec.toNat_setWidth, BitVec.extractLsb'_toNat]
  omega

theorem and_significantBits_of_ne_SH {i : Instr} (h : i.format ≠ .SH) (w : Word) : w &&& significantBits i = w := by
  rw [significantBits, if_neg h]
  exact BitVec.and_allOnes

theorem and_significantBits_of_SH {i : Instr} (h : i.format = .SH) (w : Word) :
    w &&& significantBits i =
      packBytes (opField w) (b2Field w) (b3Field w) (b4Field w) ((imm8Field w).setWidth 32) := by
  have hff (x : Byte) : x &&& 0xFF = x := BitVec.and_allOnes
  have hmask : significantBits i = packBytes 0xFF 0xFF 0xFF 0xFF 0xFF := by rw [significantBits, if_pos h]; decide
  conv_lhs => rw [← packBytes_fields w, hmask, packBytes_and]
  simp only [hff, setWidth_imm8Field]

/-! ## Encoding what a row builds (R62) -/

/-- A word in the layout of a format: the given opcode and the format's fields of `w`, with zeros in the
documented-zero fields and in the ignored bits of format SH. -/
def Format.repack (f : Format) (op : Byte) (w : Word) : Word :=
  match f with
  | .J => packJump op (imm56Field w)
  | .B => packBytes op (b2Field w) (b3Field w) 0 (imm32Field w)
  | .BI => packShort op (b2Field w) (imm16Field w) (imm32Field w)
  | .R3 => packBytes op (b2Field w) (b3Field w) (b4Field w) 0
  | .R2 => packBytes op (b2Field w) 0 (b4Field w) 0
  | .I | .M => packBytes op (b2Field w) 0 (b4Field w) (imm32Field w)
  | .SH => packBytes op (b2Field w) 0 (b4Field w) ((imm8Field w).setWidth 32)
  | .MI => packBytes op 0 0 (b4Field w) (imm32Field w)
  | .IO => packBytes op 0 (b3Field w) (b4Field w) (imm32Field w)
  | .N => packBytes op 0 0 0 0

/-- Row by row: what a row builds has the row's format, and its encoding is the word repacked in that format. -/
theorem opTable_repacks : ∀ row ∈ opTable, ∀ w,
    (row.build w).format = row.format ∧ encode (row.build w) = row.format.repack row.opcode w := by
  simp only [opTable, jumpRows, memRows, aluRows, aluImmRows, List.forall_mem_append, List.forall_mem_cons,
    List.not_mem_nil, IsEmpty.forall_iff, implies_true, and_true]
  and_intros
  all_goals exact fun _ => ⟨rfl, rfl⟩

/-- Where the documented-zero fields are zero, repacking loses no bit, but for format SH. -/
theorem Format.repack_eq_self {f : Format} {w : Word} (hf : f ≠ .SH) (hz : f.zeroFields w) :
    f.repack (opField w) w = w := by
  cases f with
  | J => exact packJump_fields w
  | B => exact packBytes_eq_iff.2 ⟨rfl, rfl, rfl, hz.symm, rfl⟩
  | BI => exact packShort_fields w
  | R3 => exact packBytes_eq_iff.2 ⟨rfl, rfl, rfl, rfl, hz.symm⟩
  | R2 => exact packBytes_eq_iff.2 ⟨rfl, rfl, hz.1.symm, rfl, hz.2.symm⟩
  | I | M => exact packBytes_eq_iff.2 ⟨rfl, rfl, hz.symm, rfl, rfl⟩
  | SH => exact absurd rfl hf
  | MI => exact packBytes_eq_iff.2 ⟨rfl, hz.1.symm, hz.2.symm, rfl, rfl⟩
  | IO => exact packBytes_eq_iff.2 ⟨rfl, hz.symm, rfl, rfl, rfl⟩
  | N =>
    obtain ⟨h2, h3, h4, h5⟩ := (imm56Field_eq_zero w).1 hz
    exact packBytes_eq_iff.2 ⟨rfl, h2.symm, h3.symm, h4.symm, h5.symm⟩

/-- Where the documented-zero fields are zero, repacking keeps the bits the instruction depends on (R69). -/
theorem Format.repack_eq_and_significantBits {i : Instr} {w : Word} (hz : i.format.zeroFields w) :
    i.format.repack (opField w) w = w &&& significantBits i := by
  by_cases hf : i.format = .SH
  · rw [and_significantBits_of_SH hf]
    rw [hf] at hz ⊢
    exact packBytes_inj.2 ⟨rfl, rfl, hz.symm, rfl, rfl⟩
  · rw [and_significantBits_of_ne_SH hf, repack_eq_self hf hz]

/-- Settles O2: a word that decodes strictly has zeros in its documented-zero fields, so repacking it in its row's
format, which is what encoding does, gives it back. -/
theorem encodingADecodedWordGivesItBack : Obligations.EncodingADecodedWordGivesItBack := by
  intro c w i hs h
  obtain ⟨row, hrow, hz, rfl⟩ := strict_decode_eq_ok hs h
  obtain ⟨hformat, hencode⟩ := opTable_repacks row (mem_opTable_of_rowOf hrow) w
  rw [hencode, ← opField_of_rowOf hrow, ← hformat]
  exact Format.repack_eq_and_significantBits (hformat ▸ hz)

/-! ## Undefined opcodes (R77) -/

/-- The opcode byte has 256 values: those without a row are the ones R77 lists. -/
theorem rowAt_eq_none_iff (op : Byte) : rowAt op = none ↔ undefinedOpcode op := by
  unfold undefinedOpcode
  revert op
  decide +kernel

end Sys2Proof

namespace Sys2Proof.Machine

open Claims

/-! ## Fetching a word that does not decode (R77, R78) -/

theorem State.fetchInstr_eq_error {s : State} {w : Word} {e : DecodeError} (hw : s.prog[s.pc.toNat]? = some w)
    (he : decode s.cfg w = .error e) : s.fetchInstr = .error (faultOfDecode e) := by
  rw [State.fetchInstr, State.fetch_eq_ok hw]
  simp only [he]

/-- A running machine raises the fault of the word it fetches, and is left as it was but for the status. -/
theorem step_of_decode_error {s : State} {w : Word} {e : DecodeError} (hwf : s.cfg.wf = true)
    (hrun : s.status = .running) (hw : s.prog[s.pc.toNat]? = some w) (he : decode s.cfg w = .error e) :
    step s = .fault (faultOfDecode e) ∧ s.settle = { s with status := .faulted (faultOfDecode e) } := by
  have hstep : step s = .fault (faultOfDecode e) := by
    simp [step, hwf, hrun, State.atEnd_eq_false hw, State.fetchInstr_eq_error hw he, raise]
  exact ⟨hstep, State.settle_of_fault hstep⟩

/-- Settles O3: the bytes without a row are those listed, and a fetched word that does not decode
changes the status only. -/
theorem undefinedOpcodesAreIllegal : Obligations.UndefinedOpcodesAreIllegal := by
  have illegal_iff (c : Config) (w : Word) :
      decode c w = .error (.illegalInstruction w) ↔ undefinedOpcode (opField w) :=
    (decode_eq_illegal_iff c w).trans (rowAt_eq_none_iff (opField w))
  exact ⟨illegal_iff, fun s w hwf hrun hw h => step_of_decode_error hwf hrun hw ((illegal_iff s.cfg w).2 h)⟩

/-! ## What the assembler writes (R78, R80 to R83) -/

theorem assemble_eq_some_iff {c : Config} {line : String} {w : Word} :
    assemble c line = some w ↔ ∃ i, parseLine c line = some i ∧ encode i = w :=
  Option.map_eq_some_iff

/-- Settles O6: the word of a line is the encoded word of its instruction, which decodes under every parameter
setting. -/
theorem assembledWordsDecode : Obligations.AssembledWordsDecode := by
  intro c c' line w h
  obtain ⟨i, hi, rfl⟩ := assemble_eq_some_iff.1 h
  exact ⟨i, hi, decode_encode c' i⟩

/-- Settles O4: the decoder compares the documented-zero fields under `STRICT_DECODE` only, the fault is raised by the
fetch, and an assembled word decodes. -/
theorem reservedEncodingsAreRefused : Obligations.ReservedEncodingsAreRefused := by
  refine ⟨fun c w row h => ⟨decode_of_not_zeroFields h, fun _ => decode_of_zeroFields c h,
      decode_of_not_strict h⟩,
    fun s w row hwf hrun hw h hs hz => ?_, fun c c' line w h => ?_⟩
  · exact step_of_decode_error hwf hrun hw (decode_of_not_zeroFields h hs hz)
  · obtain ⟨i, -, hi⟩ := assembledWordsDecode c c' line w h
    simp [hi]

/-! ## Words of the spec (95_test_vectors.md) -/

/-- Settles O5: the decoder runs on eight words, the shift amount's ignored bits set in the seventh. -/
theorem wordsOfTheSpecDecode : Obligations.WordsOfTheSpecDecode :=
  ⟨rfl, rfl, rfl, rfl, rfl, rfl, rfl, rfl⟩

end Sys2Proof.Machine
end

section
/-!
PROOFS for the statements of spec/40_jump_branch.md: the jump (R101), the fetch that follows it (R234, R203) and the
twelve branches (R100, R102 to R114).
-/

namespace Sys2Proof.Machine

open Claims

/-! ## Setting the pc (R27) -/

theorem State.jumpsTo_setPc (s : State) (target : Word) : JumpsTo s (s.setPc target) target where
  pc := rfl
  regs := fun q _ => s.setPc_readReg target q
  mem := s.setPc_byteAt target
  io := ⟨s.setPc_iotrace target, s.setPc_ioIn target, s.setPc_draws target⟩
  run := ⟨s.setPc_cfg target, s.setPc_prog target, s.setPc_status target⟩

/-! ## Steps with no word at the pc (R234, R203) -/

theorem step_of_pc_eq_length {s : State} (hwf : s.cfg.wf = true) (hrun : s.status = .running)
    (hpc : s.pc.toNat = s.prog.length) : step s = .next s.halt := by
  simp [step, hwf, hrun, State.atEnd, hpc]

theorem State.fetchInstr_of_length_le {s : State} (hpc : s.prog.length ≤ s.pc.toNat) :
    s.fetchInstr = .error (.fetchOutOfRange s.pc) := by
  simp [State.fetchInstr, State.fetch, List.getElem?_eq_none hpc]

theorem step_of_length_lt_pc {s : State} (hwf : s.cfg.wf = true) (hrun : s.status = .running)
    (hpc : s.prog.length < s.pc.toNat) : step s = .fault (.fetchOutOfRange s.pc) := by
  simp [step, hwf, hrun, State.atEnd, hpc.ne', State.fetchInstr_of_length_le hpc.le, raise]

/-! ## The jump (R101) -/

/-- A 56-bit target fits a word, so widening it keeps its unsigned value. -/
theorem toNat_absTarget (j : BitVec 56) : (absTarget j).toNat = j.toNat :=
  BitVec.toNat_setWidth_of_le (by decide)

/-- Settles O24: the jump replaces the pc by the widened target, and the step after it compares that pc with the
program's length. -/
theorem jumpSetsThePc : Obligations.JumpSetsThePc := by
  refine ⟨fun c j => decode_packed_J c rfl j, fun s j => ?_⟩
  refine ⟨s.setPc (absTarget j), rfl, toNat_absTarget j, s.jumpsTo_setPc _,
    fun hwf hrun => ⟨fun hlt => ?_, fun heq => ?_⟩⟩
  · exact step_of_length_lt_pc hwf hrun (hlt.trans_eq (toNat_absTarget j).symm)
  · exact ⟨_, step_of_pc_eq_length hwf hrun ((toNat_absTarget j).trans heq), rfl⟩

/-! ## The conditions (R102 to R107) -/

theorem condEq_iff (a b : Word) : condEq a b = true ↔ a = b := beq_iff_eq

theorem condNe_iff (a b : Word) : condNe a b = true ↔ a ≠ b := bne_iff_ne

theorem condLt_iff (a b : Word) : condLt a b = true ↔ a.toInt < b.toInt := decide_eq_true_iff

theorem condLe_iff (a b : Word) : condLe a b = true ↔ a.toInt ≤ b.toInt := decide_eq_true_iff

theorem condGt_iff (a b : Word) : condGt a b = true ↔ a.toInt > b.toInt := decide_eq_true_iff

theorem condGe_iff (a b : Word) : condGe a b = true ↔ a.toInt ≥ b.toInt := decide_eq_true_iff

/-! ## The branch mechanics (R100) -/

section Branch
variable {n : Nat} (s : State) (dist : BitVec n)

/-- Under either `BR_BASE` the target is the base plus the widened distance. -/
theorem State.branchTarget_eq : s.branchTarget dist = branchBase s + ext s.cfg.extBr dist := by
  cases h : s.cfg.brBase <;> simp [State.branchTarget, branchBase, State.nextPc, Config.pcStep, h]

/-- A branch whose test decides `P` goes to its target if `P` holds and to the next instruction otherwise. -/
theorem branchTo_jumpsTo {taken : Bool} {P : Prop} (htaken : taken = true ↔ P) :
    (P → JumpsTo s (branchTo taken dist s) (branchBase s + ext s.cfg.extBr dist)) ∧
    (¬ P → JumpsTo s (branchTo taken dist s) (s.pc + 1)) := by
  constructor
  · intro hP
    rw [← s.branchTarget_eq, branchTo, if_pos (htaken.2 hP)]
    exact s.jumpsTo_setPc _
  · intro hP
    rw [branchTo, if_neg (htaken.not.2 hP)]
    exact s.jumpsTo_setPc _

end Branch

/-! ## The two branch formats (R64, R65) -/

section Formats
variable {op : Byte} {cond : Word → Word → Bool} {taken : Word → Word → Prop}

/-- An opcode whose row is of format B and whose meaning is a register branch by a test that decides `taken`. -/
theorem regBranch_of_branchReg {mk : RegAddr → RegAddr → BitVec 32 → Instr} (hrow : rowAt op = some (rowB op mk))
    (hexec : ∀ r q d s, exec (mk r q d) s = branchReg cond r q d s) (hcond : ∀ a b, cond a b = true ↔ taken a b) :
    RegBranch op mk taken := by
  refine ⟨fun c r q d => decode_packed_B c hrow r q d, fun s r q d hr hq => ?_⟩
  refine ⟨branchTo (cond (s.readReg r) (s.readReg q)) d s, ?_, branchTo_jumpsTo s d (hcond _ _)⟩
  rw [hexec, branchReg_eq_next]
  exact ⟨by simp [hr, hq], rfl⟩

/-- An opcode whose row is of format BI and whose meaning is an immediate branch by a test that decides `taken`. -/
theorem immBranch_of_branchImm {mk : RegAddr → BitVec 32 → BitVec 16 → Instr} (hrow : rowAt op = some (rowBI op mk))
    (hexec : ∀ r v d s, exec (mk r v d) s = branchImm cond r v d s) (hcond : ∀ a b, cond a b = true ↔ taken a b) :
    ImmBranch op mk taken := by
  refine ⟨fun c r d v => decode_packed_BI c hrow r v d, fun s r d v hr => ?_⟩
  refine ⟨branchTo (cond (s.readReg r) (s.immOperand v)) d s, ?_, branchTo_jumpsTo s d (hcond _ _)⟩
  rw [hexec, branchImm_eq_next]
  exact ⟨by simp [hr], rfl⟩

end Formats

/-- Settles O25: each opcode has its row of format B and is a register branch by its condition. -/
theorem registerBranchesFollowTheirConditions : Obligations.RegisterBranchesFollowTheirConditions :=
  ⟨regBranch_of_branchReg rfl (fun _ _ _ _ => rfl) condEq_iff,
   regBranch_of_branchReg rfl (fun _ _ _ _ => rfl) condNe_iff,
   regBranch_of_branchReg rfl (fun _ _ _ _ => rfl) condLt_iff,
   regBranch_of_branchReg rfl (fun _ _ _ _ => rfl) condLe_iff,
   regBranch_of_branchReg rfl (fun _ _ _ _ => rfl) condGt_iff,
   regBranch_of_branchReg rfl (fun _ _ _ _ => rfl) condGe_iff⟩

/-- Settles O26: each opcode has its row of format BI and is an immediate branch by its condition. -/
theorem immediateBranchesFollowTheirConditions : Obligations.ImmediateBranchesFollowTheirConditions :=
  ⟨immBranch_of_branchImm rfl (fun _ _ _ _ => rfl) condEq_iff,
   immBranch_of_branchImm rfl (fun _ _ _ _ => rfl) condNe_iff,
   immBranch_of_branchImm rfl (fun _ _ _ _ => rfl) condLt_iff,
   immBranch_of_branchImm rfl (fun _ _ _ _ => rfl) condLe_iff,
   immBranch_of_branchImm rfl (fun _ _ _ _ => rfl) condGt_iff,
   immBranch_of_branchImm rfl (fun _ _ _ _ => rfl) condGe_iff⟩

end Sys2Proof.Machine
end

section
/-!
PROOFS for the statements of spec/41_alu.md: the one shape every ALU instruction has (R120, R121, R122), what each
operation computes (R123 to R153), and that no instruction off memory and ports faults once its register fields are
valid (R100, R101, R120, R201).
-/

namespace Sys2Proof

/-! ## The words of formats SH and R2 (R67, R69) -/

/-- The amount is the low byte, whatever the 24 bits above it are. -/
theorem imm8Field_packBytes_append (op b2 b3 b4 : Byte) (high : BitVec 24) (n : BitVec 8) :
    imm8Field (packBytes op b2 b3 b4 (high ++ n)) = n := by
  rw [imm8Field, packBytes, BitVec.extractLsb'_append_eq_of_add_le (by decide)]
  exact BitVec.extractLsb'_append_eq_right

theorem decode_packed_SH_ignores (c : Config) {op : Byte} {mk : RegAddr → BitVec 8 → RegAddr → Instr}
    (h : rowAt op = some (rowSH op mk)) (r d : RegAddr) (high : BitVec 24) (n : BitVec 8) :
    decode c (packBytes op r 0 d (high ++ n)) = .ok (mk r n d) :=
  decode_eq_ok c h (opField_packBytes ..) (b3Field_packBytes ..) (by simp [rowSH, imm8Field_packBytes_append])

/-- In format R2 byte 3 and the last four bytes are documented zeros (R78). -/
theorem decode_packed_R2_reserved {c : Config} {op : Byte} {mk : RegAddr → RegAddr → Instr}
    (h : rowAt op = some (rowR2 op mk)) (hs : c.strictDecode = true) (r d : RegAddr) {q : RegAddr} {v : BitVec 32}
    (hne : q ≠ 0 ∨ v ≠ 0) :
    decode c (packBytes op r q d v) = .error (.reservedEncoding (packBytes op r q d v)) := by
  have hrow : rowOf (packBytes op r q d v) = some (rowR2 op mk) := by rw [rowOf_eq_rowAt, opField_packBytes, h]
  refine decode_of_not_zeroFields hrow hs fun ⟨hq, hv⟩ => ?_
  rw [b3Field_packBytes] at hq
  rw [imm32Field_packBytes] at hv
  exact hne.elim (absurd hq) (absurd hv)

end Sys2Proof

namespace Sys2Proof.Machine

open Claims

/-! ## Instructions off memory and ports (R100, R101, R120) -/

/-- Past the check of its register fields, an instruction that touches neither data memory nor a port gives a next
state. -/
theorem exec_eq_checkRegs_next {i : Instr} {s : State} (hread : readsMem i = false) (hwrite : writesMem i = false)
    (hio : ioDev i s = none) : ∃ t, exec i s = checkRegs s (i.usedRegs s.cfg) (.next t) := by
  cases i
  case lw | lwi | ret => cases hread
  case sw | swi | call => cases hwrite
  case lio | lioi | sio | sioi => cases hio
  -- `jmp`, the branches and the ALU instructions
  all_goals exact ⟨_, rfl⟩

/-- Settles O23: the step performs the fetched instruction, whose register check passes. -/
theorem instructionsOffMemoryAndPortsNeverFault : Obligations.InstructionsOffMemoryAndPortsNeverFault := by
  intro s w i hwf hrun hw hi hregs hread hwrite hio
  obtain ⟨t, ht⟩ := exec_eq_checkRegs_next hread hwrite hio
  refine ⟨t, ?_⟩
  rw [step_eq_exec hwf hrun (State.atEnd_eq_false hw) (State.fetchInstr_eq_ok hw hi), ht,
    checkRegs_of_valid _ (List.all_eq_true.1 hregs)]

/-! ## Writing one register and going on (R25, R27) -/

theorem State.writesReg_writeReg_advance (s : State) (d : RegAddr) (v : Word) :
    WritesReg s (s.writeReg d v).advance d v where
  value := s.readReg_writeReg_same d v
  regs := fun _ hq => s.readReg_writeReg_ne (List.mem_singleton.not.1 hq) v
  pc := by simp [Config.pcStep]
  mem := fun k => by simp
  io := by simp [SameIo]
  run := by simp [SameRun]

/-! ## The three ALU formats (R66, R68, R69) -/

section Formats
variable {op : Byte}

/-- An opcode whose row is of format R3 and whose meaning is the register form of an operation `f`, which may depend on
the parameters and answers in the relation `P` to its operands. -/
theorem regForm_of_aluReg {mk : RegAddr → RegAddr → RegAddr → Instr} {P : Config → Word → Word → Word → Prop}
    (f : Config → Word → Word → Word) (hrow : rowAt op = some (rowR3 op mk))
    (hexec : ∀ r q d s, exec (mk r q d) s = aluReg (f s.cfg) r q d s) (hf : ∀ c a b, P c a b (f c a b)) :
    RegForm op mk P := by
  refine ⟨fun c r q d => decode_packed_R3 c hrow r q d, fun s r q d hr hq hd => ?_⟩
  refine ⟨_, _, ?_, hf s.cfg _ _, s.writesReg_writeReg_advance d _⟩
  rw [hexec, aluReg_eq_next]
  exact ⟨by simp [hr, hq, hd], rfl⟩

/-- An opcode whose row is of format I and whose meaning is the immediate form of an operation `f`. -/
theorem immForm_of_aluImm {mk : RegAddr → BitVec 32 → RegAddr → Instr} {P : Word → Word → Word → Prop}
    (f : Word → Word → Word) (hrow : rowAt op = some (rowI op mk))
    (hexec : ∀ r v d s, exec (mk r v d) s = aluImm f r v d s) (hf : ∀ a b, P a b (f a b)) : ImmForm op mk P := by
  refine ⟨fun c r d v => decode_packed_I c hrow r v d, fun s r d v hr hd => ?_⟩
  refine ⟨_, _, ?_, hf _ _, s.writesReg_writeReg_advance d _⟩
  rw [hexec, aluImm_eq_next]
  exact ⟨by simp [hr, hd], rfl⟩

/-- An opcode whose row is of format SH and whose meaning is the immediate form of a shift or rotate `f`. -/
theorem shiftForm_of_shiftImm {mk : RegAddr → BitVec 8 → RegAddr → Instr} {P : Config → Word → Nat → Word → Prop}
    (f : Config → Word → BitVec 8 → Word) (hrow : rowAt op = some (rowSH op mk))
    (hexec : ∀ r n d s, exec (mk r n d) s = shiftImm (f s.cfg) r n d s) (hf : ∀ c a n, P c a n.toNat (f c a n)) :
    ShiftForm op mk P := by
  refine ⟨fun c r d high n => ?_, fun s r d n hr hd => ?_⟩
  · rw [BitVec.append_assoc]
    exact decode_packed_SH_ignores c hrow r d high n
  · refine ⟨_, _, ?_, hf s.cfg _ _, s.writesReg_writeReg_advance d _⟩
    rw [hexec, shiftImm_eq_next]
    exact ⟨by simp [hr, hd], rfl⟩

end Formats

/-! ## Arithmetic (R123 to R128) -/

theorem toNat_opAdd (a b : Word) : (opAdd a b).toNat = (a.toNat + b.toNat) % 2 ^ 64 := BitVec.toNat_add a b

/-- The difference wraps to the representative from 0 to 2^64 - 1, also where it is negative. -/
theorem toNat_opSub (a b : Word) : ((opSub a b).toNat : Int) = ((a.toNat : Int) - b.toNat) % 2 ^ 64 := by
  have ha := a.isLt
  have hb := b.isLt
  rw [opSub, BitVec.toNat_sub]
  omega

theorem toNat_opMul (a b : Word) : (opMul a b).toNat = (a.toNat * b.toNat) % 2 ^ 64 := BitVec.toNat_mul a b

/-- Settles O27: each opcode has its row of format R3 and is the register form of its operation. -/
theorem registerArithmeticWraps : Obligations.RegisterArithmeticWraps :=
  ⟨regForm_of_aluReg (fun _ => opAdd) rfl (fun _ _ _ _ => rfl) fun _ => toNat_opAdd,
   regForm_of_aluReg (fun _ => opSub) rfl (fun _ _ _ _ => rfl) fun _ => toNat_opSub,
   regForm_of_aluReg (fun _ => opMul) rfl (fun _ _ _ _ => rfl) fun _ => toNat_opMul⟩

/-- Settles O28: each opcode has its row of format I and is the immediate form of its operation. -/
theorem immediateArithmeticWraps : Obligations.ImmediateArithmeticWraps :=
  ⟨immForm_of_aluImm opAdd rfl (fun _ _ _ _ => rfl) toNat_opAdd,
   immForm_of_aluImm opSub rfl (fun _ _ _ _ => rfl) toNat_opSub,
   immForm_of_aluImm opMul rfl (fun _ _ _ _ => rfl) toNat_opMul⟩

/-! ## Logic, bit by bit (R129 to R139) -/

section Bits
variable (a b : Word)

theorem getLsbD_opAnd (k : Nat) :
    (opAnd a b).getLsbD k = true ↔ a.getLsbD k = true ∧ b.getLsbD k = true := by
  simp [opAnd]

theorem getLsbD_opOr (k : Nat) :
    (opOr a b).getLsbD k = true ↔ a.getLsbD k = true ∨ b.getLsbD k = true := by
  simp [opOr]

theorem getLsbD_opXor (k : Nat) : (opXor a b).getLsbD k = true ↔ a.getLsbD k ≠ b.getLsbD k := by
  simp [opXor]

theorem getLsbD_opXnor (k : Nat) (hk : k < 64) : (opXnor a b).getLsbD k = true ↔ a.getLsbD k = b.getLsbD k := by
  simp [opXnor, hk]

theorem getLsbD_opNor (k : Nat) (hk : k < 64) :
    (opNor a b).getLsbD k = true ↔ a.getLsbD k = false ∧ b.getLsbD k = false := by
  simp [opNor, hk]

end Bits

/-- Settles O29: the register forms of the five operations, each given by its bits. -/
theorem registerLogicIsBitwise : Obligations.RegisterLogicIsBitwise :=
  ⟨regForm_of_aluReg (fun _ => opAnd) rfl (fun _ _ _ _ => rfl) fun _ a b k _ => getLsbD_opAnd a b k,
   regForm_of_aluReg (fun _ => opOr) rfl (fun _ _ _ _ => rfl) fun _ a b k _ => getLsbD_opOr a b k,
   regForm_of_aluReg (fun _ => opXor) rfl (fun _ _ _ _ => rfl) fun _ a b k _ => getLsbD_opXor a b k,
   regForm_of_aluReg (fun _ => opXnor) rfl (fun _ _ _ _ => rfl) fun _ => getLsbD_opXnor,
   regForm_of_aluReg (fun _ => opNor) rfl (fun _ _ _ _ => rfl) fun _ => getLsbD_opNor⟩

/-- Settles O30: the immediate forms of the five operations, each given by its bits. -/
theorem immediateLogicIsBitwise : Obligations.ImmediateLogicIsBitwise :=
  ⟨immForm_of_aluImm opAnd rfl (fun _ _ _ _ => rfl) fun a b k _ => getLsbD_opAnd a b k,
   immForm_of_aluImm opOr rfl (fun _ _ _ _ => rfl) fun a b k _ => getLsbD_opOr a b k,
   immForm_of_aluImm opXor rfl (fun _ _ _ _ => rfl) fun a b k _ => getLsbD_opXor a b k,
   immForm_of_aluImm opXnor rfl (fun _ _ _ _ => rfl) getLsbD_opXnor,
   immForm_of_aluImm opNor rfl (fun _ _ _ _ => rfl) getLsbD_opNor⟩

/-! ## The one-operand instruction (R67, R133) -/

theorem execNot_eq_next {r d : RegAddr} {s t : State} :
    execNot r d s = .next t ↔ (∀ x ∈ [r, d], s.cfg.validReg x = true) ∧
      t = (s.writeReg d (opNot (s.readReg r))).advance := by
  rw [execNot, checkRegs_eq_next, next_eq_next, aluWrite]

/-- Settles O31: `not` has its row of format R2, whose byte 3 and last four bytes are documented zeros; opcode 0x95 has
no row; and the complement of a word is 2^64 - 1 minus it. -/
theorem notInvertsEveryBit : Obligations.NotInvertsEveryBit := by
  refine ⟨fun c r d => decode_packed_R2 c rfl r d, fun c r q d v hs => decode_packed_R2_reserved rfl hs r d,
    fun c w hop => ?_, fun s r d hr hd => ?_⟩
  · rw [decode_eq_illegal_iff, hop]
    rfl
  · exact ⟨_, _, execNot_eq_next.2 ⟨by simp [hr, hd], rfl⟩, BitVec.toNat_not, s.writesReg_writeReg_advance d _⟩

/-! ## Comparisons (R140 to R145) -/

theorem boolWord_eq_ite {c : Bool} {P : Prop} [Decidable P] (h : c = true ↔ P) : boolWord c = if P then 1 else 0 := by
  simp only [boolWord, h]

theorem opCeq_eq (a b : Word) : opCeq a b = if a = b then 1 else 0 := boolWord_eq_ite (condEq_iff a b)

theorem opClt_eq (a b : Word) : opClt a b = if a.toInt < b.toInt then 1 else 0 := boolWord_eq_ite (condLt_iff a b)

theorem opClte_eq (a b : Word) : opClte a b = if a.toInt ≤ b.toInt then 1 else 0 := boolWord_eq_ite (condLe_iff a b)

/-- Settles O32: the register forms of the three conditions of R102, R104 and R105, each as a word. -/
theorem registerComparisonsWriteZeroOrOne : Obligations.RegisterComparisonsWriteZeroOrOne :=
  ⟨regForm_of_aluReg (fun _ => opCeq) rfl (fun _ _ _ _ => rfl) fun _ => opCeq_eq,
   regForm_of_aluReg (fun _ => opClt) rfl (fun _ _ _ _ => rfl) fun _ => opClt_eq,
   regForm_of_aluReg (fun _ => opClte) rfl (fun _ _ _ _ => rfl) fun _ => opClte_eq⟩

/-- Settles O33: the immediate forms of the same three conditions. -/
theorem immediateComparisonsWriteZeroOrOne : Obligations.ImmediateComparisonsWriteZeroOrOne :=
  ⟨immForm_of_aluImm opCeq rfl (fun _ _ _ _ => rfl) opCeq_eq,
   immForm_of_aluImm opClt rfl (fun _ _ _ _ => rfl) opClt_eq,
   immForm_of_aluImm opClte rfl (fun _ _ _ _ => rfl) opClte_eq⟩

/-! ## Shifts (R122, R146 to R149) -/

/-- The amount of a register form is the low byte of the register. -/
theorem toNat_shiftAmount (b : Word) : (shiftAmount b).toNat = b.toNat % 256 := BitVec.toNat_setWidth ..

/-- What a shift gives that is 0 where it moves no places and `g p` where it moves `p`. -/
theorem shiftPlaces_elim (k : ShiftOver) (n : BitVec 8) (g : Nat → Nat) :
    (shiftPlaces k n).elim 0 g =
      if n.toNat < 64 then g n.toNat else if k = .zero then 0 else g (n.toNat % 64) := by
  unfold shiftPlaces
  split
  · rfl
  · cases k <;> rfl

theorem toNat_shiftRight (k : ShiftOver) (a : Word) (n : BitVec 8) :
    (shiftRight k a n).toNat = (shiftPlaces k n).elim 0 fun p => a.toNat / 2 ^ p := by
  unfold shiftRight
  cases shiftPlaces k n with
  | none => rfl
  | some p => exact (BitVec.toNat_ushiftRight a p).trans (Nat.shiftRight_eq_div_pow _ p)

theorem toNat_shiftLeft (k : ShiftOver) (a : Word) (n : BitVec 8) :
    (shiftLeft k a n).toNat = (shiftPlaces k n).elim 0 fun p => a.toNat * 2 ^ p % 2 ^ 64 := by
  unfold shiftLeft
  cases shiftPlaces k n with
  | none => rfl
  | some p => exact BitVec.toNat_shiftLeft.trans (congrArg (· % 2 ^ 64) (Nat.shiftLeft_eq _ p))

theorem rightShifted_shiftRight (c : Config) (a : Word) (n : BitVec 8) :
    rightShifted c a n.toNat (shiftRight c.shiftOver a n) :=
  (toNat_shiftRight ..).trans (shiftPlaces_elim ..)

theorem leftShifted_shiftLeft (c : Config) (a : Word) (n : BitVec 8) :
    leftShifted c a n.toNat (shiftLeft c.shiftOver a n) :=
  (toNat_shiftLeft ..).trans (shiftPlaces_elim ..)

/-- The register form of a shift or rotate `f` that stands in the relation `P` to its operand and amount, the amount
being the low byte of the second register. -/
theorem regForm_of_shiftReg {op : Byte} {mk : RegAddr → RegAddr → RegAddr → Instr}
    {P : Config → Word → Nat → Word → Prop} (f : Config → Word → BitVec 8 → Word)
    (hrow : rowAt op = some (rowR3 op mk)) (hexec : ∀ r q d s, exec (mk r q d) s = shiftReg (f s.cfg) r q d s)
    (hf : ∀ c a n, P c a n.toNat (f c a n)) : RegForm op mk fun c a b v => P c a (b.toNat % 256) v :=
  regForm_of_aluReg (fun c a b => f c a (shiftAmount b)) hrow hexec fun c a b => toNat_shiftAmount b ▸ hf c a _

/-- Settles O34: the register forms of the two shifts. -/
theorem registerShiftsUseTheLowByte : Obligations.RegisterShiftsUseTheLowByte :=
  ⟨regForm_of_shiftReg (fun c => shiftRight c.shiftOver) rfl (fun _ _ _ _ => rfl) rightShifted_shiftRight,
   regForm_of_shiftReg (fun c => shiftLeft c.shiftOver) rfl (fun _ _ _ _ => rfl) leftShifted_shiftLeft⟩

/-- Settles O35: the immediate forms of the two shifts, in format SH. -/
theorem immediateShiftsUseTheLowByte : Obligations.ImmediateShiftsUseTheLowByte :=
  ⟨shiftForm_of_shiftImm (fun c => shiftRight c.shiftOver) rfl (fun _ _ _ _ => rfl) rightShifted_shiftRight,
   shiftForm_of_shiftImm (fun c => shiftLeft c.shiftOver) rfl (fun _ _ _ _ => rfl) leftShifted_shiftLeft⟩

/-! ## Rotates (R122, R150 to R153) -/

/-- Bit `k` comes from `k + n` while that is inside the word, and from `k + n - 64` beyond it. -/
theorem rightRotated_rotRight (a : Word) (n : BitVec 8) : rightRotated a n.toNat (rotRight a n) := by
  intro k hk
  rw [rotRight, BitVec.getLsbD_rotateRight]
  by_cases hin : k < 64 - n.toNat % 64 % 64
  · rw [decide_eq_true hin, cond_true]
    congr 1
    omega
  · rw [decide_eq_false hin, cond_false, decide_eq_true hk, Bool.true_and]
    congr 1
    omega

/-- Bit `k` goes to `k + n` while that is inside the word, and to `k + n - 64` beyond it. -/
theorem leftRotated_rotLeft (a : Word) (n : BitVec 8) : leftRotated a n.toNat (rotLeft a n) := by
  intro k hk
  have hlt : (k + n.toNat) % 64 < 64 := Nat.mod_lt _ (by decide)
  rw [rotLeft, BitVec.getLsbD_rotateLeft]
  by_cases hin : (k + n.toNat) % 64 < n.toNat % 64 % 64
  · rw [decide_eq_true hin, cond_true]
    congr 1
    omega
  · rw [decide_eq_false hin, cond_false, decide_eq_true hlt, Bool.true_and]
    congr 1
    omega

/-- Settles O36: the register forms of the two rotations. -/
theorem registerRotatesLoseNoBit : Obligations.RegisterRotatesLoseNoBit :=
  ⟨regForm_of_shiftReg (fun _ => rotRight) rfl (fun _ _ _ _ => rfl) fun _ => rightRotated_rotRight,
   regForm_of_shiftReg (fun _ => rotLeft) rfl (fun _ _ _ _ => rfl) fun _ => leftRotated_rotLeft⟩

/-- Settles O37: the immediate forms of the two rotations, in format SH. -/
theorem immediateRotatesLoseNoBit : Obligations.ImmediateRotatesLoseNoBit :=
  ⟨shiftForm_of_shiftImm (fun _ => rotRight) rfl (fun _ _ _ _ => rfl) fun _ => rightRotated_rotRight,
   shiftForm_of_shiftImm (fun _ => rotLeft) rfl (fun _ _ _ _ => rfl) fun _ => leftRotated_rotLeft⟩

end Sys2Proof.Machine
end

section
/-!
PROOFS for the statements of spec/42_io_memory.md: the loads and stores (R161 to R164) with their faults in order (R160,
R203), the IO reads (R165, R166) and the IO writes (R167, R168).
-/

namespace Sys2Proof.Machine

open Claims

/-! ## Past the check of the register fields (R80 step 4)

With valid register fields each of the eight instructions is its shared operation, at the address or the device it
names. -/

section Valid
variable {s : State}

theorem checkRegs_one {r : RegAddr} (k : Result) (hr : s.cfg.validReg r = true) : checkRegs s [r] k = k :=
  checkRegs_of_valid k (by simp [hr])

theorem checkRegs_two {r q : RegAddr} (k : Result) (hr : s.cfg.validReg r = true) (hq : s.cfg.validReg q = true) :
    checkRegs s [r, q] k = k :=
  checkRegs_of_valid k (by simp [hr, hq])

variable {m r q : RegAddr} (a : BitVec 32)

theorem exec_lw_of_valid (hm : s.cfg.validReg m = true) (hr : s.cfg.validReg r = true) :
    exec (.lw m a r) s = loadWord (s.baseAddr m a) r s := checkRegs_two _ hm hr

theorem exec_lwi_of_valid (hr : s.cfg.validReg r = true) :
    exec (.lwi a r) s = loadWord (s.directAddr a) r s := checkRegs_one _ hr

theorem exec_sw_of_valid (hm : s.cfg.validReg m = true) (hr : s.cfg.validReg r = true) :
    exec (.sw m a r) s = storeWord (s.baseAddr m a) r s := checkRegs_two _ hm hr

theorem exec_swi_of_valid (hr : s.cfg.validReg r = true) :
    exec (.swi a r) s = storeWord (s.directAddr a) r s := checkRegs_one _ hr

theorem exec_lio_of_valid (hr : s.cfg.validReg r = true) (hq : s.cfg.validReg q = true) :
    exec (.lio a r q) s = readDevice (s.directAddr a) r q s := checkRegs_two _ hr hq

theorem exec_lioi_of_valid (hr : s.cfg.validReg r = true) (hq : s.cfg.validReg q = true) :
    exec (.lioi a r q) s = readDevice (s.directAddr a) r q s := checkRegs_two _ hr hq

theorem exec_sioi_of_valid (hr : s.cfg.validReg r = true) :
    exec (.sioi a r) s = writeDevice (s.directAddr a) r s := checkRegs_one _ hr

/-- Under `SIO_ADDR = basePlusImm` the base field is used: it is checked and read. -/
theorem exec_sio_of_basePlusImm (haddr : s.cfg.sioAddr = .basePlusImm) (hm : s.cfg.validReg m = true)
    (hr : s.cfg.validReg r = true) : exec (.sio m a r) s = writeDevice (s.baseAddr m a) r s := by
  have hused : (Instr.sio m a r).usedRegs s.cfg = [m, r] := by simp [Instr.usedRegs, haddr]
  have hdev : s.sioDev m a = s.baseAddr m a := by simp [State.sioDev, haddr]
  rw [exec, execSio, hused, hdev, checkRegs_two _ hm hr]

/-- Under `SIO_ADDR = imm` the base field is neither checked nor read (log entry 14). -/
theorem exec_sio_of_imm (haddr : s.cfg.sioAddr = .imm) (hr : s.cfg.validReg r = true) :
    exec (.sio m a r) s = writeDevice (s.directAddr a) r s := by
  have hused : (Instr.sio m a r).usedRegs s.cfg = [r] := by simp [Instr.usedRegs, haddr]
  have hdev : s.sioDev m a = s.directAddr a := by simp [State.sioDev, haddr]
  rw [exec, execSio, hused, hdev, checkRegs_one _ hr]

end Valid

/-! ## Loads (R161, R162) -/

theorem loadsFrom_of_loadWord {i : Instr} {s : State} {a : Word} {d : RegAddr} (h : exec i s = loadWord a d s) :
    LoadsFrom i s a d := by
  intro v hbound hword
  exact ⟨(s.writeReg d v).advance, h.trans (loadWord_eq_next.2 ⟨v, hbound, hword, rfl⟩),
    s.writesReg_writeReg_advance d v⟩

/-- Settles O39: each load has its row and loads from the address its format forms. -/
theorem loadsReadOneWord : Obligations.LoadsReadOneWord :=
  ⟨fun c m r a => decode_packed_M c rfl m a r, fun c r a => decode_packed_MI c rfl a r,
   fun _ _ a _ hm hr => loadsFrom_of_loadWord (exec_lw_of_valid a hm hr),
   fun _ a _ hr => loadsFrom_of_loadWord (exec_lwi_of_valid a hr)⟩

/-! ## Stores (R163, R164) -/

theorem State.storesWord_setMem_advance (s : State) (a v : Word) :
    StoresWord s (s.setMem (s.mem.writeWord s.cfg.memFill a.toNat v)).advance a v where
  stored := s.wordAt_writeWord a v
  rest := fun _ hk => s.byteAt_writeWord_outside a v hk
  regs := fun q _ => by simp
  pc := by simp [Config.pcStep]
  io := by simp [SameIo]
  run := by simp [SameRun]

theorem storesTo_of_storeWord {i : Instr} {s : State} {a : Word} {r : RegAddr} (h : exec i s = storeWord a r s) :
    StoresTo i s a (s.readReg r) := by
  intro hbound
  exact ⟨_, h.trans (storeWord_eq_next.2 ⟨hbound, rfl⟩), s.storesWord_setMem_advance a (s.readReg r)⟩

/-- Settles O40: each store has its row and stores to the address its format forms. -/
theorem storesWriteOneWord : Obligations.StoresWriteOneWord :=
  ⟨fun c m r a => decode_packed_M c rfl m a r, fun c r a => decode_packed_MI c rfl a r,
   fun _ _ a _ hm hr => storesTo_of_storeWord (exec_sw_of_valid a hm hr),
   fun _ a _ hr => storesTo_of_storeWord (exec_swi_of_valid a hr)⟩

/-! ## The faults of loads and stores (R160, R203) -/

section Faults
variable {s : State} {a : Word}

theorem loadWord_beyond_memory (r : RegAddr) (h : s.cfg.memWords ≤ a.toNat) :
    loadWord a r s = .fault (.memOutOfRange a) := by
  have herr : s.memRead a = .error (.memOutOfRange a) := if_pos h
  rw [loadWord, herr]
  rfl

theorem storeWord_beyond_memory (r : RegAddr) (h : s.cfg.memWords ≤ a.toNat) :
    storeWord a r s = .fault (.memOutOfRange a) := by
  have herr : s.memWrite a (s.readReg r) = .error (.memOutOfRange a) := if_pos h
  rw [storeWord, herr]
  rfl

theorem loadWord_of_no_value (r : RegAddr) (hbound : a.toNat < s.cfg.memWords) (hword : s.wordAt a = none) :
    loadWord a r s = .fault (.uninitRead a) := by
  rcases s.memRead_cases a with ⟨hbeyond, -⟩ | ⟨-, -, herr⟩ | ⟨v, -, hv, -⟩
  · omega
  · rw [loadWord, herr]
    rfl
  · rw [hword] at hv; cases hv

end Faults

/-- Settles O41: past the register check, both operations look at the bound before the word. -/
theorem memoryFaultsFollowTheirOrder : Obligations.MemoryFaultsFollowTheirOrder := by
  refine ⟨fun s m a r hm hr => ?_, fun s a r hr => ?_⟩
  · rw [exec_lw_of_valid a hm hr, exec_sw_of_valid a hm hr]
    exact ⟨fun h => ⟨loadWord_beyond_memory r h, storeWord_beyond_memory r h⟩, loadWord_of_no_value r⟩
  · rw [exec_lwi_of_valid a hr, exec_swi_of_valid a hr]
    exact ⟨fun h => ⟨loadWord_beyond_memory r h, storeWord_beyond_memory r h⟩, loadWord_of_no_value r⟩

/-! ## IO reads (R165, R166) -/

@[simp] theorem State.writePair_ioIn (s : State) (r q : RegAddr) (a : IoAnswer) (b : Bool) :
    (s.writePair r q a b).ioIn = s.ioIn := by
  obtain ⟨-, -, -, -, -, -, h, -⟩ := s.writePair_fields r q a b
  exact h

@[simp] theorem State.writePair_status (s : State) (r q : RegAddr) (a : IoAnswer) (b : Bool) :
    (s.writePair r q a b).status = s.status := by
  obtain ⟨-, -, -, h, -⟩ := s.writePair_fields r q a b
  exact h

theorem State.nextAnswer_of_ioIn {s : State} {x : IoAnswer} {rest : List IoAnswer} (h : s.ioIn = x :: rest)
    (dev : Word) : s.nextAnswer dev = x := by
  rw [State.nextAnswer, h]

theorem readsDevice_of_readDevice {i : Instr} {s : State} {dev : Word} {r q : RegAddr}
    (h : exec i s = readDevice dev r q s) : ReadsDevice i s dev r q := by
  intro hanswers
  refine ⟨_, s.nextAnswer dev, h.trans (readDevice_eq_next.2 ⟨hanswers, rfl⟩), ?trace, ?queue, ?both, ?either, ?regs,
    ?pc, ?mem, ?run⟩
  case trace => simp
  case queue => exact fun x rest hio => ⟨State.nextAnswer_of_ioIn hio dev, by simp [hio]⟩
  case both => exact fun hne => by simp [Holds, State.readReg_writePair, hne]
  case either =>
    -- one register keeps the word or the control bit, as the free value decides (U7)
    rintro rfl
    cases Config.lioKeepsWord s.draws <;> simp [Holds, State.readReg_writePair]
  case regs => exact fun p hp => by simp [State.readReg_writePair_of_notMem _ _ _ hp]
  case pc => simp [Config.pcStep]
  case mem => exact fun k => by simp
  case run => simp [SameRun]

/-- Settles O43: both instructions have their row and read the device the immediate names. -/
theorem ioReadsDeliverWordAndControlBit : Obligations.IoReadsDeliverWordAndControlBit :=
  ⟨fun c r q a => decode_packed_IO c rfl a r q, fun c r q a => decode_packed_IO c rfl a r q,
   fun _ a _ _ hr hq => ⟨readsDevice_of_readDevice (exec_lio_of_valid a hr hq),
     readsDevice_of_readDevice (exec_lioi_of_valid a hr hq)⟩⟩

/-! ## IO writes (R167, R168) -/

theorem State.sioControl_of_fixed {s : State} {b : Bit} (h : s.cfg.sioCtrl = .fixed b) : s.sioControl = b := by
  rw [State.sioControl, h]

theorem writesDevice_of_writeDevice {i : Instr} {s : State} {dev : Word} {r : RegAddr}
    (h : exec i s = writeDevice dev r s) : WritesDevice i s dev (s.readReg r) := by
  intro hanswers
  refine ⟨_, s.sioControl, h.trans (writeDevice_eq_next.2 ⟨hanswers, rfl⟩), ?trace, ?control, ?queue, ?regs, ?pc, ?mem,
    ?run⟩
  case trace => simp
  case control => exact fun _ => State.sioControl_of_fixed
  case queue => simp
  case regs => exact fun p _ => by simp
  case pc => simp [Config.pcStep]
  case mem => exact fun k => by simp
  case run => simp [SameRun]

/-- Settles O44: both instructions have their row and write to the device they name, `sio` under either `SIO_ADDR`. -/
theorem ioWritesSendOneWord : Obligations.IoWritesSendOneWord :=
  ⟨fun c m r a => decode_packed_M c rfl m a r, fun c r a => decode_packed_MI c rfl a r,
   fun _ _ a _ hr =>
     ⟨fun haddr hm => writesDevice_of_writeDevice (exec_sio_of_basePlusImm a haddr hm hr),
      fun haddr => writesDevice_of_writeDevice (exec_sio_of_imm a haddr hr)⟩,
   fun _ a _ hr => writesDevice_of_writeDevice (exec_sioi_of_valid a hr)⟩

end Sys2Proof.Machine
end

section
/-!
PROOFS for the statements of spec/43_call_return.md: the call (R181), the return (R182), and that the one undoes the
other on the function stack (R180).
-/

namespace Sys2Proof.Machine

/-! ## The stack operations, parameter by parameter (R180 to R182) -/

section Stack
variable (s : State)

theorem State.pushAddr_eq : s.pushAddr = if s.cfg.stackDir = .downPre then s.sp - 1 else s.sp := by
  unfold State.pushAddr
  cases s.cfg.stackDir <;> rfl

theorem State.pushedSp_eq : s.pushedSp = if s.cfg.stackDir = .downPre then s.sp - 1 else s.sp + 1 := by
  unfold State.pushedSp
  cases s.cfg.stackDir <;> rfl

theorem State.popAddr_eq : s.popAddr = if s.cfg.stackDir = .downPre then s.sp else s.sp - 1 := by
  unfold State.popAddr
  cases s.cfg.stackDir <;> rfl

theorem State.poppedSp_eq : s.poppedSp = if s.cfg.stackDir = .downPre then s.sp + 1 else s.sp - 1 := by
  unfold State.poppedSp
  cases s.cfg.stackDir <;> rfl

theorem State.savedPc_eq : s.savedPc = if s.cfg.callSaves = .pc then s.pc else s.pc + 1 := by
  unfold State.savedPc
  cases s.cfg.callSaves <;> rfl

theorem State.returnPc_eq (v : Word) : s.returnPc v = if s.cfg.callSaves = .pc then v + 1 else v := by
  unfold State.returnPc
  cases s.cfg.callSaves <;> rfl

theorem State.pushAddr_of_stackDir :
    (s.cfg.stackDir = .downPre → s.pushAddr = s.sp - 1) ∧ (s.cfg.stackDir = .upPost → s.pushAddr = s.sp) := by
  constructor <;> intro hdir <;> simp [s.pushAddr_eq, hdir]

theorem State.popAddr_of_stackDir :
    (s.cfg.stackDir = .downPre → s.popAddr = s.sp) ∧ (s.cfg.stackDir = .upPost → s.popAddr = s.sp - 1) := by
  constructor <;> intro hdir <;> simp [s.popAddr_eq, hdir]

end Stack

/-- An instruction leaves the parameters, the program store and the status alone. -/
theorem Effect.sameRun {i : Instr} {s t : State} (h : Effect i s t) : SameRun s t := by
  refine ⟨h.cfg_eq, h.prog_eq, ?_⟩
  cases h with
  | jumps _ next | writes _ _ next | stores _ _ next | reads _ _ _ _ next | sends _ _ _ next | calls _ _ next
  | returns _ _ _ next => simp [next]

/-! ## The call (R181) -/

section Call
variable {s t : State} {j : BitVec 56}

/-- The state a `call` gives. -/
def State.afterCall (s : State) (j : BitVec 56) : State :=
  ((s.setMem (s.mem.writeWord s.cfg.memFill s.pushAddr.toNat s.savedPc)).writeReg s.cfg.regSp s.pushedSp).setPc
    (absTarget j)

theorem exec_call_eq_next :
    exec (.call j) s = .next t ↔ s.pushAddr.toNat < s.cfg.memWords ∧ t = s.afterCall j := execCall_eq_next

theorem exec_call_beyond_memory (h : s.cfg.memWords ≤ s.pushAddr.toNat) :
    exec (.call j) s = .fault (.memOutOfRange s.pushAddr) := by
  rcases s.push_cases s.savedPc with ⟨-, herr⟩ | ⟨hbound, -⟩
  · rw [exec, execCall, herr]
    rfl
  · omega

variable (s j)

@[simp] theorem State.afterCall_cfg : (s.afterCall j).cfg = s.cfg := by
  simp [State.afterCall]

theorem State.wordAt_afterCall : (s.afterCall j).wordAt s.pushAddr = some s.savedPc := by
  rw [State.afterCall, State.setPc_wordAt, State.writeReg_wordAt, State.wordAt_writeWord]

theorem State.holds_afterCall : Holds s (s.afterCall j) s.cfg.regSp s.pushedSp :=
  State.readReg_writeReg_same _ _ _

end Call

/-- Settles O46: in range, `call` gives `afterCall`, and what it leaves alone is what every instruction with its store
address and its destination leaves alone; beyond memory the push faults. -/
theorem callPushesAndJumps : Obligations.CallPushesAndJumps := by
  refine ⟨fun c j => decode_packed_J c rfl j, State.pushAddr_of_stackDir,
    fun s j => ⟨fun hbound => ?_, exec_call_beyond_memory⟩⟩
  have hnext : exec (.call j) s = .next (s.afterCall j) := exec_call_eq_next.2 ⟨hbound, rfl⟩
  have heff := exec_effect hnext
  obtain ⟨houtside, -⟩ := heff.stores_at rfl
  exact ⟨_, hnext, toNat_absTarget j, s.savedPc_eq ▸ s.wordAt_afterCall j, houtside,
    s.pushedSp_eq ▸ s.holds_afterCall j, heff.sameRegsBut, heff.sameIo rfl, heff.sameRun⟩

/-! ## The return (R182) -/

section Return
variable {s t : State}

/-- The state a `ret` gives that pops `v`. -/
def State.afterRet (s : State) (v : Word) : State :=
  (s.writeReg s.cfg.regSp s.poppedSp).setPc (s.returnPc v)

theorem exec_ret_eq_next :
    exec .ret s = .next t ↔
      ∃ v, s.popAddr.toNat < s.cfg.memWords ∧ s.wordAt s.popAddr = some v ∧ t = s.afterRet v := execRet_eq_next

theorem exec_ret_beyond_memory (h : s.cfg.memWords ≤ s.popAddr.toNat) :
    exec .ret s = .fault (.memOutOfRange s.popAddr) := by
  rcases s.pop_cases with ⟨-, herr⟩ | ⟨hbound, -, -⟩ | ⟨_, hbound, -, -⟩
  · rw [exec, execRet, herr]
    rfl
  · omega
  · omega

theorem exec_ret_of_no_value (hbound : s.popAddr.toNat < s.cfg.memWords) (hword : s.wordAt s.popAddr = none) :
    exec .ret s = .fault (.uninitRead s.popAddr) := by
  rcases s.pop_cases with ⟨hbeyond, -⟩ | ⟨-, -, herr⟩ | ⟨v, -, hv, -⟩
  · omega
  · rw [exec, execRet, herr]
    rfl
  · rw [hword] at hv; cases hv

theorem State.holds_afterRet (s : State) (v : Word) : Holds s (s.afterRet v) s.cfg.regSp s.poppedSp :=
  State.readReg_writeReg_same _ _ _

end Return

/-- The word of `ret` is the one the layout of format N packs (R73). -/
theorem ret_word_eq_packBytes : (0x43#8 ++ 0#56 : Word) = packBytes 0x43 0 0 0 0 := by decide

/-- Settles O47: with a word to pop, `ret` gives `afterRet`, and it has no store address; the two faults are those of
the pop. -/
theorem retPopsAndReturns : Obligations.RetPopsAndReturns := by
  refine ⟨fun c => ret_word_eq_packBytes ▸ decode_packed_N c rfl, State.popAddr_of_stackDir,
    fun s => ⟨fun v hbound hword => ?_, exec_ret_beyond_memory, exec_ret_of_no_value⟩⟩
  have hnext : exec .ret s = .next (s.afterRet v) := exec_ret_eq_next.2 ⟨v, hbound, hword, rfl⟩
  have heff := exec_effect hnext
  exact ⟨_, hnext, s.returnPc_eq v, heff.sameMem rfl, s.poppedSp_eq ▸ s.holds_afterRet v, heff.sameRegsBut,
    heff.sameIo rfl, heff.sameRun⟩

/-! ## A return after its call (R180) -/

/-- A pop undoes a push: where the stack pointer is the pushed one, the word popped is the word pushed and the stack
pointer goes back. -/
theorem State.pop_undoes_push {s u : State} (hdir : u.cfg.stackDir = s.cfg.stackDir) (hsp : u.sp = s.pushedSp) :
    u.popAddr = s.pushAddr ∧ u.poppedSp = s.sp := by
  rw [u.popAddr_eq, u.poppedSp_eq, s.pushAddr_eq, hdir, hsp, s.pushedSp_eq]
  cases s.cfg.stackDir with
  | downPre => exact ⟨rfl, BitVec.sub_add_cancel s.sp 1⟩
  | upPost => exact ⟨BitVec.add_sub_cancel s.sp 1, BitVec.add_sub_cancel s.sp 1⟩

/-- The saved pc returns to the instruction after the `call`, whichever of the two adds the step. -/
theorem State.returnPc_savedPc {s u : State} (hsaves : u.cfg.callSaves = s.cfg.callSaves) :
    u.returnPc s.savedPc = s.pc + 1 := by
  rw [u.returnPc_eq, s.savedPc_eq, hsaves]
  cases s.cfg.callSaves <;> rfl

/-- In an accepted configuration the stack pointer is not `nptr` (R24). -/
theorem State.isNptr_regSp {s : State} (hwf : s.cfg.wf = true) : s.isNptr s.cfg.regSp = false := by
  have hne : s.cfg.regSp ≠ 0 := by
    intro h0
    simp [Config.wf, h0] at hwf
  rw [State.isNptr, beq_false_of_ne hne, Bool.and_false]

/-- States with the same parameters and the same bytes have the same words. -/
theorem SameMem.wordAt_eq {s t : State} (h : SameMem s t) (hcfg : t.cfg = s.cfg) (a : Word) :
    t.wordAt a = s.wordAt a := by
  simp only [SameMem, State.byteAt, hcfg] at h
  rw [State.wordAt, hcfg]
  exact Memory.readWord_congr fun k _ => h k

/-- Settles O48: `u` has the stack pointer the `call` pushed to and the word it stored, so `ret` pops that word and
moves the stack pointer back. -/
theorem returnContinuesAfterTheCall : Obligations.ReturnContinuesAfterTheCall := by
  intro s t u j hwf hcall hcfg hsp hmem
  obtain ⟨hbound, rfl⟩ := exec_call_eq_next.1 hcall
  have hcfg' : u.cfg = s.cfg := hcfg.trans (s.afterCall_cfg j)
  have hnptr : s.isNptr s.cfg.regSp = false := State.isNptr_regSp hwf
  have hsp' : u.sp = s.pushedSp := by
    rw [State.sp, hcfg', hsp, s.holds_afterCall j, hnptr]
    rfl
  obtain ⟨haddr, hpopped⟩ := State.pop_undoes_push (hcfg' ▸ rfl) hsp'
  have hword : u.wordAt u.popAddr = some s.savedPc := by
    rw [haddr, hmem.wordAt_eq hcfg, s.wordAt_afterCall]
  refine ⟨u.afterRet s.savedPc, exec_ret_eq_next.2 ⟨_, ?bound, hword, rfl⟩, State.returnPc_savedPc (hcfg' ▸ rfl), ?sp⟩
  case bound => rwa [haddr, hcfg']
  case sp =>
    have hnptr' : u.isNptr u.cfg.regSp = false := State.isNptr_regSp (hcfg' ▸ hwf)
    have hheld := u.holds_afterRet s.savedPc
    rw [Holds, hnptr', hpopped, hcfg'] at hheld
    exact hheld

end Sys2Proof.Machine
end

section
/-!
PROOFS for the statements of spec/60_exceptions.md: the faults an instruction can raise, each with its condition, and
that no instruction is refused (R200, R201).
-/

namespace Sys2Proof.Machine

/-! ## The faults of R201's table that an instruction raises -/

/-- The faults the table names for instruction `i` in state `s`, each under its condition.  The faults of fetch and
decode have no constructor, and neither has the register half of `UninitRead` (log entry 1). -/
inductive Raises (i : Instr) (s : State) : Fault → Prop where
  /-- F4 -/
  | badRegister (r : RegAddr) (used : r ∈ i.usedRegs s.cfg) (beyond : s.cfg.nreg ≤ r.toNat) :
      Raises i s (.registerOutOfRange r)
  /-- F5, the memory half -/
  | noValue (a : Word) (reads : readsMem i = true) (unset : s.wordAt a = none) : Raises i s (.uninitRead a)
  /-- F6 -/
  | beyondMemory (a : Word) (accesses : readsMem i = true ∨ writesMem i = true) (beyond : s.cfg.memWords ≤ a.toNat) :
      Raises i s (.memOutOfRange a)
  /-- F7 -/
  | silentDevice (d : Word) (names : ioDev i s = some d) (silent : s.cfg.devices.answers d = false) :
      Raises i s (.noDevice d)

/-! ## Where a fault comes from, operation by operation -/

/-- Where nothing after `x` can fault, the fault is the one that stands in `x`. -/
theorem eq_error_of_orRaise_next {α : Type} {x : Except Fault α} {g : α → State} {f : Fault}
    (h : orRaise x (fun v => .next (g v)) = .fault f) : x = .error f := by
  rcases orRaise_eq_fault.1 h with hx | ⟨_, -, hv⟩
  · exact hx
  · cases hv

theorem State.memWrite_of_push {s : State} {v : Word} {f : Fault} (h : s.push v = .error f) :
    s.memWrite s.pushAddr v = .error f := by
  unfold State.push at h
  split at h
  next => cases h
  next hwrite => cases h; exact hwrite

theorem State.memRead_of_pop {s : State} {f : Fault} (h : s.pop = .error f) : s.memRead s.popAddr = .error f := by
  unfold State.pop at h
  split at h
  next => cases h
  next hread => cases h; exact hread

section Sources
variable {i : Instr} {s : State} {f : Fault}

/-- The check of the register fields raises for a field of the instruction; any other fault is of what follows it. -/
theorem Raises.of_checkRegs {k : Result} (h : checkRegs s (i.usedRegs s.cfg) k = .fault f)
    (hk : k = .fault f → Raises i s f) : Raises i s f := by
  rcases checkRegs_eq_fault h with ⟨r, hused, hinvalid, rfl⟩ | ⟨-, hf⟩
  · exact .badRegister r hused (by simpa [Config.validReg] using hinvalid)
  · exact hk hf

theorem Raises.of_memRead {a : Word} (hreads : readsMem i = true) (h : s.memRead a = .error f) : Raises i s f := by
  rcases s.memRead_cases a with ⟨hbeyond, e⟩ | ⟨-, hunset, e⟩ | ⟨_, -, -, e⟩ <;> cases e.symm.trans h
  · exact .beyondMemory a (.inl hreads) hbeyond
  · exact .noValue a hreads hunset

theorem Raises.of_memWrite {a v : Word} (hwrites : writesMem i = true) (h : s.memWrite a v = .error f) :
    Raises i s f := by
  rcases s.memWrite_cases a v with ⟨hbeyond, e⟩ | ⟨-, e⟩ <;> cases e.symm.trans h
  exact .beyondMemory a (.inr hwrites) hbeyond

theorem Raises.of_ioRead {dev : Word} (hdev : ioDev i s = some dev) (h : s.ioRead dev = .error f) : Raises i s f := by
  rcases s.ioRead_cases dev with ⟨hsilent, e⟩ | ⟨-, e⟩ <;> cases e.symm.trans h
  exact .silentDevice dev hdev hsilent

theorem Raises.of_ioWrite {dev v : Word} {c : Bit} (hdev : ioDev i s = some dev) (h : s.ioWrite dev v c = .error f) :
    Raises i s f := by
  rcases s.ioWrite_cases dev v c with ⟨hsilent, e⟩ | ⟨-, e⟩ <;> cases e.symm.trans h
  exact .silentDevice dev hdev hsilent

/-- Every fault of an instruction is one the table names for it: it comes from the check of the register fields or from
the one access the instruction makes. -/
theorem exec_raises (h : exec i s = .fault f) : Raises i s f := by
  cases i
  case lw | lwi => exact .of_checkRegs h fun hk => .of_memRead rfl (eq_error_of_orRaise_next hk)
  case sw | swi => exact .of_checkRegs h fun hk => .of_memWrite rfl (eq_error_of_orRaise_next hk)
  case call => exact .of_memWrite rfl (State.memWrite_of_push (eq_error_of_orRaise_next h))
  case ret => exact .of_memRead rfl (State.memRead_of_pop (eq_error_of_orRaise_next h))
  case lio | lioi => exact .of_checkRegs h fun hk => .of_ioRead rfl (eq_error_of_orRaise_next hk)
  case sio | sioi => exact .of_checkRegs h fun hk => .of_ioWrite rfl (eq_error_of_orRaise_next hk)
  -- `jmp`, the branches and the ALU instructions go on once their fields are checked
  all_goals exact .of_checkRegs h nofun

end Sources

/-- Settles O22: the conditions are those of the fault's case in `Raises`. -/
theorem faultsComeFromTheInstructionsNamed : Obligations.FaultsComeFromTheInstructionsNamed := by
  refine ⟨fun i s f h => ?_, exec_ne_refused⟩
  cases exec_raises h with
  | badRegister _ used beyond => exact ⟨used, beyond⟩
  | noValue _ reads unset => exact ⟨reads, unset⟩
  | beyondMemory _ accesses beyond => exact ⟨accesses, beyond⟩
  | silentDevice _ names silent => exact ⟨names, silent⟩

end Sys2Proof.Machine
end

section
/-!
PROOFS for the statements of spec/70_reset_and_hazards.md: how a run ends (R234).
-/

namespace Sys2Proof.Machine

/-- Settles O9: at `PROG_LEN` the step halts before it fetches; beyond it there is no word to fetch. -/
theorem runsEndAtTheProgramLength : Obligations.RunsEndAtTheProgramLength := by
  intro s hwf hrun
  refine ⟨fun hpc => ?atEnd, fun hpc => ?beyond⟩
  case atEnd => exact ⟨s.halt, step_of_pc_eq_length hwf hrun hpc, rfl, rfl⟩
  case beyond => exact step_of_length_lt_pc hwf hrun hpc

end Sys2Proof.Machine
end
